-- ==== Sys2Proof/Word.lean ====
section
/-! DEFINITION. The word types of 00_scope.md R12 and R13. -/

namespace Sys2Proof

/-- A byte is 8 bits (R13). -/
abbrev Byte := BitVec 8

/-- The word of MD5, SHA1, SHA224 and SHA256 (R8, `w = 32`). -/
abbrev Word32 := BitVec 32

/-- The word of SHA384 and SHA512 (R8, `w = 64`), and the width of a hash-word register (R10, `HW`). -/
abbrev Word64 := BitVec 64

end Sys2Proof
end

