-- ==== Sys2Proof/Config.lean ====
section
/-! DEFINITION. The engine-wide parameters of 00_scope.md R10. All are fixed by the spec's own
choice (92_eei_decisions.md D3, D16 to D18); the model takes each at its default (log entry 11).
There is no free value: no command leaves a result open (45_context_commands.md R207). -/

namespace Sys2Proof.Config

/-- NCTX: the digest contexts the engine holds. -/
def nctx : Nat := 1

/-- NHMAX: the number of hash-word registers. -/
abbrev nhmax : Nat := 8

/-- BMAX: the bytes of the block buffer. -/
def bmax : Nat := 128

/-- LENW: the bits of the total-length counter. -/
abbrev lenw : Nat := 128

/-- CNTW: the bits of the command word's byte count. -/
abbrev cntw : Nat := 24

/-- DMAX: the bytes of the digest register. -/
abbrev dmax : Nat := 64

end Sys2Proof.Config
end

