-- ==== Sys2Proof/Syntax.lean ====
section
/-! DEFINITION. The syntax of the engine: algorithms, output modes, the commands of
spec/opcode_table.json (one constructor a row), the pair a host presents, and the host's inputs. -/

namespace Sys2Proof

/-- The six algorithms, in the order of their ids (00_scope.md R2, 30_encoding.md R76). -/
inductive Alg where
  | md5 | sha1 | sha224 | sha256 | sha384 | sha512
  deriving DecidableEq, Repr

/-- The output modes of FORMAT (30_encoding.md R78). -/
inductive Mode where
  | raw | hex
  deriving DecidableEq, Repr

/-- The commands: one constructor per row of spec/opcode_table.json. -/
inductive Instr where
  /-- NEW with a supported algorithm id (R191). -/
  | newMd5
  | newSha1
  | newSha224
  | newSha256
  | newSha384
  | newSha512
  /-- NEW with an id the engine does not have (R194). -/
  | newUnsupported6
  | newUnsupported7
  | newUnsupported8
  | newUnsupported9
  | newUnsupported10
  | newUnsupported11
  | newUnsupported12
  | newUnsupported13
  | newUnsupported14
  | newUnsupported15
  /-- UPDATE with the number of payload bytes that follow on DIN (R195). -/
  | update (n : Nat)
  /-- FINALIZE (R200). -/
  | finalize
  /-- FORMAT raw and FORMAT hex (R220). -/
  | formatRaw
  | formatHex
  deriving DecidableEq, Repr

/-- A command as the host presents it: the word on CMD and the payload on DIN (00_scope.md R15). -/
structure Command where
  word : BitVec 32
  payload : List Byte
  deriving DecidableEq, Repr

/-- What the host can do to the engine at a command boundary (70_reset_and_hazards.md R271). -/
inductive HostInput where
  | command (c : Command)
  | reset
  deriving DecidableEq, Repr

end Sys2Proof
end

