-- ==== Sys2Proof/WellFormed.lean ====
section
/-! DEFINITION. Which commands have a command word. -/

namespace Sys2Proof

/-- An UPDATE's count fits the 24 bits of `cnt` (30_encoding.md R75); every other command is
well formed. -/
def Instr.wf : Instr → Bool
  | .newMd5 => true
  | .newSha1 => true
  | .newSha224 => true
  | .newSha256 => true
  | .newSha384 => true
  | .newSha512 => true
  | .newUnsupported6 => true
  | .newUnsupported7 => true
  | .newUnsupported8 => true
  | .newUnsupported9 => true
  | .newUnsupported10 => true
  | .newUnsupported11 => true
  | .newUnsupported12 => true
  | .newUnsupported13 => true
  | .newUnsupported14 => true
  | .newUnsupported15 => true
  | .update n => decide (n < 2 ^ Config.cntw)
  | .finalize => true
  | .formatRaw => true
  | .formatHex => true

end Sys2Proof
end

