-- ==== Sys2Proof/Decode.lean ====
section
/-! DEFINITION. The command word of 30_encoding.md: its fields, its payload length, the decoder
(total, rejecting by name), the encoder, and the opcode table's rows. -/

namespace Sys2Proof

/-- Why a word is illegal: the clauses of R80, in its order. Every illegal word behaves the same
way; the names are the model's own (log entry 6). -/
inductive IllegalWord where
  /-- `op` is 0x0 or 0x5 to 0xf. -/
  | reservedOp
  /-- NEW with `cnt ≠ 0`. -/
  | newCount
  /-- UPDATE with `arg ≠ 0`. -/
  | updateArg
  /-- FINALIZE with `arg ≠ 0` or `cnt ≠ 0`. -/
  | finalizeField
  /-- FORMAT with `arg > 1` or `cnt ≠ 0`. -/
  | formatField
  deriving DecidableEq, Repr

/-- `op = bits[31:28]` (R71, R79). -/
def opField (word : BitVec 32) : BitVec 4 := word.extractLsb' 28 4

/-- `arg = bits[27:24]` (R71, R79). -/
def argField (word : BitVec 32) : BitVec 4 := word.extractLsb' 24 4

/-- `cnt = bits[23:0]` (R71, R79). -/
def cntField (word : BitVec 32) : BitVec 24 := word.extractLsb' 0 24

/-- `paylen(word)`: `cnt` if `op = 0x2`, else 0, whatever `arg` is (R72). -/
def paylen (word : BitVec 32) : Nat :=
  if opField word = 0x2#4 then (cntField word).toNat else 0

/-- NEW by algorithm id (R74, R76): ids 0 to 5 are the six algorithms, 6 to 15 are unsupported. -/
def decodeNew (arg : BitVec 4) : Instr :=
  match arg.toNat with
  | 0 => .newMd5
  | 1 => .newSha1
  | 2 => .newSha224
  | 3 => .newSha256
  | 4 => .newSha384
  | 5 => .newSha512
  | 6 => .newUnsupported6
  | 7 => .newUnsupported7
  | 8 => .newUnsupported8
  | 9 => .newUnsupported9
  | 10 => .newUnsupported10
  | 11 => .newUnsupported11
  | 12 => .newUnsupported12
  | 13 => .newUnsupported13
  | 14 => .newUnsupported14
  | _ => .newUnsupported15

/-- The function `decode` of R81: every 32-bit word is one command or is illegal. -/
def decode (word : BitVec 32) : Except IllegalWord Instr :=
  if opField word = 0x1#4 then
    if cntField word = 0#24 then .ok (decodeNew (argField word)) else .error .newCount
  else if opField word = 0x2#4 then
    if argField word = 0#4 then .ok (.update (cntField word).toNat) else .error .updateArg
  else if opField word = 0x3#4 then
    if argField word = 0#4 ∧ cntField word = 0#24 then .ok .finalize else .error .finalizeField
  else if opField word = 0x4#4 then
    if cntField word = 0#24 ∧ argField word = 0#4 then .ok .formatRaw
    else if cntField word = 0#24 ∧ argField word = 1#4 then .ok .formatHex
    else .error .formatField
  else .error .reservedOp

/-- A command word put together from its three fields (R71). -/
def commandWord (op arg : BitVec 4) (cnt : BitVec 24) : BitVec 32 := op ++ arg ++ cnt

/-- The word of a command (R74 to R78). An UPDATE whose count does not fit `cnt` has no word; the
encoder then gives the word of the count's low 24 bits, and `Instr.wf` is false. -/
def encode : Instr → BitVec 32
  | .newMd5 => commandWord 0x1 0 0
  | .newSha1 => commandWord 0x1 1 0
  | .newSha224 => commandWord 0x1 2 0
  | .newSha256 => commandWord 0x1 3 0
  | .newSha384 => commandWord 0x1 4 0
  | .newSha512 => commandWord 0x1 5 0
  | .newUnsupported6 => commandWord 0x1 6 0
  | .newUnsupported7 => commandWord 0x1 7 0
  | .newUnsupported8 => commandWord 0x1 8 0
  | .newUnsupported9 => commandWord 0x1 9 0
  | .newUnsupported10 => commandWord 0x1 10 0
  | .newUnsupported11 => commandWord 0x1 11 0
  | .newUnsupported12 => commandWord 0x1 12 0
  | .newUnsupported13 => commandWord 0x1 13 0
  | .newUnsupported14 => commandWord 0x1 14 0
  | .newUnsupported15 => commandWord 0x1 15 0
  | .update n => commandWord 0x2 0 (BitVec.ofNat 24 n)
  | .finalize => commandWord 0x3 0 0
  | .formatRaw => commandWord 0x4 0 0
  | .formatHex => commandWord 0x4 1 0

/-- The payload bytes a command takes from DIN (R72, and "payload_bytes" of the opcode table). -/
def Instr.payloadBytes : Instr → Nat
  | .update n => n
  | .newMd5 | .newSha1 | .newSha224 | .newSha256 | .newSha384 | .newSha512 => 0
  | .newUnsupported6 | .newUnsupported7 | .newUnsupported8 | .newUnsupported9
  | .newUnsupported10 | .newUnsupported11 | .newUnsupported12 | .newUnsupported13
  | .newUnsupported14 | .newUnsupported15 => 0
  | .finalize | .formatRaw | .formatHex => 0

/-- A host's pair is framed when the payload has exactly `paylen(word)` bytes (R266). -/
def Command.framed (c : Command) : Bool := c.payload.length == paylen c.word

/-- A `mask`/`match` row of the opcode map (R73): the row is selected when `x & mask = match`. -/
def rowSelects (mask matchValue word : BitVec 32) : Bool := word &&& mask == matchValue

/-- The opcode map as (match, mask) pairs, in the order of spec/opcode_table.json. -/
def opcodeRows : List (BitVec 32 × BitVec 32) :=
  [(0x10000000, 0xffffffff), (0x11000000, 0xffffffff), (0x12000000, 0xffffffff),
   (0x13000000, 0xffffffff), (0x14000000, 0xffffffff), (0x15000000, 0xffffffff)] ++
  [(0x16000000, 0xffffffff), (0x17000000, 0xffffffff), (0x18000000, 0xffffffff),
   (0x19000000, 0xffffffff), (0x1a000000, 0xffffffff), (0x1b000000, 0xffffffff),
   (0x1c000000, 0xffffffff), (0x1d000000, 0xffffffff), (0x1e000000, 0xffffffff),
   (0x1f000000, 0xffffffff)] ++
  [(0x20000000, 0xff000000), (0x30000000, 0xffffffff), (0x40000000, 0xffffffff),
   (0x41000000, 0xffffffff)]

/-- The word of a numeral of `nbits` bits: the bits above `nbits` are 0, and nothing longer than
32 bits is a command word (R71, R83). -/
def tableWord (nbits w : Nat) : Option (BitVec 32) :=
  if nbits ≤ 32 then some (BitVec.ofNat 32 (w % 2 ^ nbits)) else none

/-- What the decoder reads from a row's word, numbered as the opcode table numbers it. -/
def decodeTableWord (nbits w : Nat) : Option Instr :=
  match tableWord nbits w with
  | some word =>
    match decode word with
    | .ok i => some i
    | .error _ => none
  | none => none

end Sys2Proof
end

