-- ==== Sys2Proof/Machine/State.lean ====
section
/-! DEFINITION. The state of the engine (10_state.md R20), its ports (30_encoding.md R70), the
reasons a step can stop, and the state after reset (R38, R260). Plain data throughout. -/

namespace Sys2Proof.Machine

/-- The lifecycle states of `ST` (R25). -/
inductive Lifecycle where
  | idle | fresh | active | finalized
  deriving DecidableEq, Repr

/-- The kinds a response's status can name (30_encoding.md R82, 60_exceptions.md R230). Codes 5 to
7 are never produced (R235), so they have no constructor. -/
inductive Status where
  | ok | invalidState | lengthOverflow | unsupportedAlgorithm | illegalCommand
  deriving DecidableEq, Repr

/-- One response `(status, out)` (00_scope.md R15): `status` on RESP, `out` on DOUT, `out[0]` first. -/
structure Response where
  status : Status
  out : List Byte
  deriving DecidableEq, Repr

/-- Byte-addressed memory: (address, byte) pairs in canonical form (`Memory.wf` in Ops.lean). The
engine has one, the block buffer `BUF` (R14, 20_memory.md R50). -/
abbrev Memory := List Host.Cell

/-- The hash-word registers `H[0..7]` (R21). -/
abbrev HashRegs := Vector Word64 Config.nhmax

/-- The engine's state: the tuple of R20, and the ports of 30_encoding.md R70 as fields of the
model's own (log entries 3 and 4). -/
structure State where
  /-- `ST` (R25). -/
  st : Lifecycle
  /-- `ALG` (R23). -/
  alg : Alg
  /-- `H[0..7]` (R21). -/
  h : HashRegs
  /-- `BUF[0..127]` (R28). -/
  buf : Memory
  /-- `BUFLEN` (R29). -/
  buflen : BitVec 8
  /-- `LEN` (R30). -/
  len : BitVec Config.lenw
  /-- `DIGEST[0..63]` (R31). -/
  digest : Vector Byte Config.dmax
  /-- `DLEN` (R32). -/
  dlen : BitVec 7
  /-- The inputs the host has still to present (ports CMD, DIN, RESET; R270). -/
  host : List HostInput
  /-- The payload of the command being executed (port DIN); empty at a command boundary. -/
  din : List Byte
  /-- The response of the command just executed (ports RESP, DOUT); none since a reset. -/
  resp : Option Response
  deriving DecidableEq, Repr

/-- Why the model stops inside a command. Both are breaches of a precondition the spec prints, and
no state that a run reaches raises one (safe; log entry 9). The spec's own errors are not here:
they are responses (60_exceptions.md R236). -/
inductive Fault where
  /-- Raised by a buffer read or write with `addr + n > BMAX` (00_scope.md R14): the buffer has no
  such byte. Raised inside UPDATE and FINALIZE. Safe. -/
  | bufferRange
  /-- Raised by FINALIZE when padding starts with `BUFLEN ≥ B`, against its precondition
  (44_padding.md R185). Safe. -/
  | padPrecondition
  deriving DecidableEq, Repr

/-- Why the model gives an input no meaning. -/
inductive Refusal where
  /-- An instruction whose arm of `exec` has no meaning yet; raised by `exec` alone. Safe. -/
  | notModelled (mnemonic : String)
  /-- A pair `(word, payload)` with `|payload| ≠ paylen(word)`: a model "refuses any other pair as
  ill-formed" (70_reset_and_hazards.md R266, 93_implementation_defined.md U4). Raised by every
  command. Safe (log entry 5). -/
  | payloadLength
  deriving DecidableEq, Repr

/-- The state after reset (R38, R260). `H`, `BUF` and `DIGEST` have no reset value in the spec; the
model names zeros (log entries 1 and 2). -/
def State.reset : State where
  st := .idle
  alg := .md5
  h := Vector.replicate Config.nhmax 0
  buf := []
  buflen := 0
  len := 0
  digest := Vector.replicate Config.dmax 0
  dlen := 0
  host := []
  din := []
  resp := none

end Sys2Proof.Machine
end

