-- ==== Sys2Proof/Machine/Operands.lean ====
section
/-! DEFINITION. Operand forms: word arithmetic (00_scope.md R12), bytes and words (R13), the
per-algorithm parameters (R8, R9) and the algorithm and mode codes (30_encoding.md R76, R78). -/

namespace Sys2Proof.Machine

/-- `shr_w(a, n) = floor(a / 2^n)`, logical right shift (R12). -/
def shr {w : Nat} (a : BitVec w) (n : Nat) : BitVec w := a >>> n

/-- `rotl_w(a, n) = ((a · 2^n) mod 2^w) | floor(a / 2^(w−n))`, left rotation, `0 < n < w` (R12). -/
def rotl {w : Nat} (a : BitVec w) (n : Nat) : BitVec w := (a <<< n) ||| (a >>> (w - n))

/-- `rotr_w(a, n) = rotl_w(a, w − n)`, right rotation, `0 < n < w` (R12). -/
def rotr {w : Nat} (a : BitVec w) (n : Nat) : BitVec w := rotl a (w - n)

/-- `le(s) = Σ s[i] · 256^i`: the first byte is the least significant (R13). -/
def le : List Byte → Nat
  | [] => 0
  | b :: s => b.toNat + 256 * le s

/-- `be(s) = Σ s[i] · 256^(k−1−i)`: the first byte is the most significant (R13). -/
def be (s : List Byte) : Nat := s.foldl (fun v b => 256 * v + b.toNat) 0

/-- `to_le(v, k)`: the `k` bytes of `v`, least significant first (R13). -/
def toLe (v k : Nat) : List Byte := (List.range k).map fun i => BitVec.ofNat 8 (v / 256 ^ i)

/-- `to_be(v, k)`: the `k` bytes of `v`, most significant first (R13). -/
def toBe (v k : Nat) : List Byte :=
  (List.range k).map fun i => BitVec.ofNat 8 (v / 256 ^ (k - 1 - i))

/-- The bytes `s[at .. at+n−1]`. -/
def slice (s : List Byte) (start n : Nat) : List Byte := (s.drop start).take n

/-- `le32` (R13). -/
def le32 (s : List Byte) : Word32 := BitVec.ofNat 32 (le s)

/-- `be32` (R13). -/
def be32 (s : List Byte) : Word32 := BitVec.ofNat 32 (be s)

/-- `be64` (R13). -/
def be64 (s : List Byte) : Word64 := BitVec.ofNat 64 (be s)

/-- The id of an algorithm, as `ALG` holds it in 3 bits (30_encoding.md R76). -/
def algId : Alg → BitVec 3
  | .md5 => 0
  | .sha1 => 1
  | .sha224 => 2
  | .sha256 => 3
  | .sha384 => 4
  | .sha512 => 5

/-- `w`: the word width in bits (R8). -/
def wordBits : Alg → Nat
  | .md5 | .sha1 | .sha224 | .sha256 => 32
  | .sha384 | .sha512 => 64

/-- `B`: the block size in bytes (R8). -/
def blockBytes : Alg → Nat
  | .md5 | .sha1 | .sha224 | .sha256 => 64
  | .sha384 | .sha512 => 128

/-- `NH`: the number of hash words (R8). -/
def hashWords : Alg → Nat
  | .md5 => 4
  | .sha1 => 5
  | .sha224 | .sha256 | .sha384 | .sha512 => 8

/-- `Lf`: the bytes of the length field (R8). -/
def lengthFieldBytes : Alg → Nat
  | .md5 | .sha1 | .sha224 | .sha256 => 8
  | .sha384 | .sha512 => 16

/-- `DLEN(alg)`: the digest size in bytes (R8). -/
def digestBytes : Alg → Nat
  | .md5 => 16
  | .sha1 => 20
  | .sha224 => 28
  | .sha256 => 32
  | .sha384 => 48
  | .sha512 => 64

/-- `MAXBITS(alg) = 2^(8·Lf) − 1` (R9). -/
def maxBits (a : Alg) : Nat := 2 ^ (8 * lengthFieldBytes a) - 1

/-- The length field in the byte order of the algorithm (20_memory.md R52, 44_padding.md R183). -/
def lengthField (a : Alg) (len : Nat) : List Byte :=
  match a with
  | .md5 => toLe len 8
  | .sha1 | .sha224 | .sha256 => toBe len 8
  | .sha384 | .sha512 => toBe len 16

/-- A hash word's bytes in the order of the algorithm (20_memory.md R53): four bytes of the low
half for the 32-bit algorithms, little-endian for MD5, and eight bytes for the 64-bit ones. -/
def wordBytes (a : Alg) (v : Word64) : List Byte :=
  match a with
  | .md5 => toLe (v.toNat % 2 ^ 32) 4
  | .sha1 | .sha224 | .sha256 => toBe (v.toNat % 2 ^ 32) 4
  | .sha384 | .sha512 => toBe v.toNat 8

end Sys2Proof.Machine
end

