-- ==== Sys2Proof/Machine/Md5.lean ====
section
/-! DEFINITION. The MD5 compression function (41_md5_compress.md). Its formulas and tables are
the spec's, marked there as general knowledge (93_implementation_defined.md G1 to G6; log entry 10). -/

namespace Sys2Proof.Machine

/-- The four working words (R110, R117). -/
structure Md5Words where
  a : Word32
  b : Word32
  c : Word32
  d : Word32
  deriving DecidableEq, Repr

/-- The initial vector (R112). -/
def md5IV : Md5Words := ⟨0x67452301, 0xefcdab89, 0x98badcfe, 0x10325476⟩

/-- The additive constants, `K[0]` first, in the rows of four of the spec's table (R116). -/
def md5KRows : List (List Word32) :=
  [[0xd76aa478, 0xe8c7b756, 0x242070db, 0xc1bdceee],
   [0xf57c0faf, 0x4787c62a, 0xa8304613, 0xfd469501],
   [0x698098d8, 0x8b44f7af, 0xffff5bb1, 0x895cd7be],
   [0x6b901122, 0xfd987193, 0xa679438e, 0x49b40821]] ++
  [[0xf61e2562, 0xc040b340, 0x265e5a51, 0xe9b6c7aa],
   [0xd62f105d, 0x02441453, 0xd8a1e681, 0xe7d3fbc8],
   [0x21e1cde6, 0xc33707d6, 0xf4d50d87, 0x455a14ed],
   [0xa9e3e905, 0xfcefa3f8, 0x676f02d9, 0x8d2a4c8a]] ++
  [[0xfffa3942, 0x8771f681, 0x6d9d6122, 0xfde5380c],
   [0xa4beea44, 0x4bdecfa9, 0xf6bb4b60, 0xbebfbc70],
   [0x289b7ec6, 0xeaa127fa, 0xd4ef3085, 0x04881d05],
   [0xd9d4d039, 0xe6db99e5, 0x1fa27cf8, 0xc4ac5665]] ++
  [[0xf4292244, 0x432aff97, 0xab9423a7, 0xfc93a039],
   [0x655b59c3, 0x8f0ccc92, 0xffeff47d, 0x85845dd1],
   [0x6fa87e4f, 0xfe2ce6e0, 0xa3014314, 0x4e0811a1],
   [0xf7537e82, 0xbd3af235, 0x2ad7d2bb, 0xeb86d391]]

/-- `K[t]` at index `t`. -/
def md5K : List Word32 := md5KRows.flatten

/-- The rotation amounts, one row per round, used cyclically (R115). -/
def md5Rotations : List (List Nat) :=
  [[7, 12, 17, 22], [5, 9, 14, 20], [4, 11, 16, 23], [6, 10, 15, 21]]

/-- `S[i] = R[i div 16][i mod 4]` (R115). -/
def md5Shift (i : Nat) : Nat := (md5Rotations.getD (i / 16) []).getD (i % 4) 0

/-- The message-word index `g(i)` (R114). -/
def md5Index (i : Nat) : Nat :=
  if i ≤ 15 then i
  else if i ≤ 31 then (5 * i + 1) % 16
  else if i ≤ 47 then (3 * i + 5) % 16
  else (7 * i) % 16

/-- The nonlinear function of step `i`: F, G, H, I by rounds of 16 (R113). -/
def md5Fn (i : Nat) (x y z : Word32) : Word32 :=
  if i ≤ 15 then (x &&& y) ||| (~~~x &&& z)
  else if i ≤ 31 then (x &&& z) ||| (y &&& ~~~z)
  else if i ≤ 47 then x ^^^ y ^^^ z
  else y ^^^ (x ||| ~~~z)

/-- The message words `M[j] = le32(block[4j .. 4j+3])`, `j = 0..15` (R111). -/
def md5Message (block : List Byte) : List Word32 :=
  (List.range 16).map fun j => le32 (slice block (4 * j) 4)

/-- One step (R117). -/
def md5Step (m : List Word32) (v : Md5Words) (i : Nat) : Md5Words :=
  let t := v.a + md5Fn i v.b v.c v.d + md5K.getD i 0 + m.getD (md5Index i) 0
  ⟨v.d, v.b + rotl t (md5Shift i), v.b, v.c⟩

/-- The working words after `n` steps from `v` (R119). -/
def md5Rounds (m : List Word32) (v : Md5Words) (n : Nat) : Md5Words :=
  (List.range n).foldl (md5Step m) v

/-- `md5_compress` (R119): 64 steps and the feed-forward addition (R118). -/
def md5Compress (h : Md5Words) (block : List Byte) : Md5Words :=
  let v := md5Rounds (md5Message block) h 64
  ⟨h.a + v.a, h.b + v.b, h.c + v.c, h.d + v.d⟩

end Sys2Proof.Machine
end

