-- ==== Sys2Proof/Machine/Flags.lean ====
section
/-! DEFINITION. What the host sees of the state. The engine has no condition codes, carry,
overflow or zero flag (10_state.md R34), so no command computes one; what stands here are the
codes of the lifecycle and of a response, and the STATUS port. -/

namespace Sys2Proof.Machine

/-- The encoding of `ST` (R25). -/
def lifecycleCode : Lifecycle → BitVec 2
  | .idle => 0
  | .fresh => 1
  | .active => 2
  | .finalized => 3

/-- The status codes on RESP (30_encoding.md R82, 60_exceptions.md R230, R235). -/
def statusCode : Status → BitVec 3
  | .ok => 0
  | .invalidState => 1
  | .lengthOverflow => 2
  | .unsupportedAlgorithm => 3
  | .illegalCommand => 4

/-- The STATUS port (R33): `ST` in [1:0], `ALG` in [4:2], zeros in [7:5], `BUFLEN` in [15:8],
`DLEN` in [22:16], zeros in [31:23]. -/
def statusPort (s : State) : BitVec 32 :=
  0#9 ++ s.dlen ++ s.buflen ++ 0#3 ++ algId s.alg ++ lifecycleCode s.st

end Sys2Proof.Machine
end

