-- ==== Sys2Proof/Machine/Ops.lean ====
section
/-! DEFINITION. The named operations over memory, registers and ports: the block buffer's bytes
(00_scope.md R14), presenting a command, responding, raising an error (60_exceptions.md R236: the
ONE shared operation that takes the place of trap entry), and RESET. There is no return from an
error (R241), so none stands beside it. -/

namespace Sys2Proof.Machine

/-- What an unlisted byte of the buffer reads as (DESIGN CHOICE, unsafe: log entry 2). No rule
reads a byte that the context has not written (10_state.md R28). -/
def Memory.unlisted : Byte := 0

/-- The canonical form: addresses strictly rising, no entry equal to what an unlisted address
reads as, and no address outside `BUF[0..127]`. -/
abbrev Memory.wf (m : Memory) : Prop :=
  m.Pairwise (fun x y => x.1 < y.1) ∧ ∀ c ∈ m, c.2 ≠ Memory.unlisted ∧ c.1 < Config.bmax

/-- One byte of memory. -/
def Memory.read : Memory → Nat → Byte
  | [], _ => Memory.unlisted
  | c :: m, a => if c.1 = a then c.2 else Memory.read m a

/-- One byte stored, keeping the canonical form. -/
def Memory.write : Memory → Nat → Byte → Memory
  | [], a, v => if v = Memory.unlisted then [] else [(a, v)]
  | c :: m, a, v =>
    if a < c.1 then (if v = Memory.unlisted then c :: m else (a, v) :: c :: m)
    else if a = c.1 then (if v = Memory.unlisted then m else (a, v) :: m)
    else c :: Memory.write m a v

/-- `MemRead(addr, n)`: the bytes `BUF[addr] ‖ … ‖ BUF[addr+n−1]`; needs `addr + n ≤ BMAX` (R14). -/
def memRead (m : Memory) (addr n : Nat) : Except Fault (List Byte) :=
  if addr + n ≤ Config.bmax then .ok ((List.range n).map fun i => m.read (addr + i))
  else .error .bufferRange

/-- `MemWrite(addr, 1, v)`; needs `addr + 1 ≤ BMAX` (R14). -/
def memWrite (m : Memory) (addr : Nat) (v : Byte) : Except Fault Memory :=
  if addr + 1 ≤ Config.bmax then .ok (m.write addr v) else .error .bufferRange

/-- One byte of `BUF` in a state, for statements. -/
def State.bufByte (s : State) (a : Nat) : Byte := s.buf.read a

/-- The valid bytes `BUF[0 .. BUFLEN−1]`: the tail (R29). -/
def State.tail (s : State) : List Byte := (List.range s.buflen.toNat).map s.bufByte

/-- The valid bytes `DIGEST[0 .. DLEN−1]` (R31, R32). -/
def State.heldDigest (s : State) : List Byte := s.digest.toList.take s.dlen.toNat

/-- `DIGEST[0 .. n−1] <- bytes`, the rest of `DIGEST` as it was (R31). -/
def writeDigest (old : Vector Byte Config.dmax) (bytes : List Byte) : Vector Byte Config.dmax :=
  Vector.ofFn fun i => if i.val < bytes.length then bytes.getD i.val 0 else old[i.val]

/-- The command at the head of the host's list is presented: it leaves the list and its payload
stands on DIN (R70). -/
def State.present (s : State) (payload : List Byte) (rest : List HostInput) : State :=
  { s with host := rest, din := payload }

/-- The response stands on RESP and DOUT, and the payload is consumed (30_encoding.md R72, R82). -/
def State.answer (s : State) (r : Response) : State := { s with din := [], resp := some r }

/-- A command answers `(status, out)` (R82). -/
def respond (status : Status) (out : List Byte) (s : State) :
    Host.Outcome State Fault Refusal :=
  .next (s.answer ⟨status, out⟩)

/-- `raise Kind`: no state of R20 is written, the response is `(code(Kind), empty)`, the payload is
consumed and discarded; there is no vector, handler, saved state or mode change
(60_exceptions.md R236). -/
def raise (kind : Status) (s : State) : Host.Outcome State Fault Refusal := respond kind [] s

/-- A command whose word asks for `n` payload bytes: any other payload makes the pair ill-formed,
and the model refuses it (70_reset_and_hazards.md R266). -/
def framed (n : Nat) (body : State → Host.Outcome State Fault Refusal) (s : State) :
    Host.Outcome State Fault Refusal :=
  if s.din.length = n then body s else .refused .payloadLength

/-- An illegal word asking for `n` payload bytes raises IllegalCommand in every state
(30_encoding.md R80, 60_exceptions.md R234). -/
def execIllegal (n : Nat) (s : State) : Host.Outcome State Fault Refusal :=
  framed n (raise .illegalCommand) s

/-- RESET at a command boundary: the reset state, no response, and the host's further inputs
(70_reset_and_hazards.md R260). -/
def takeReset (rest : List HostInput) : State := { State.reset with host := rest }

end Sys2Proof.Machine
end

