-- ==== Sys2Proof/Machine/Sha1.lean ====
section
/-! DEFINITION. The SHA-1 compression function (42_sha1_sha256_compress.md section 1), and the
message schedule's recurrence shape that all SHA functions share. Formulas and tables are the
spec's, marked there as general knowledge (G7 to G10; log entry 10). -/

namespace Sys2Proof.Machine

/-- A message schedule grown `n` words by a recurrence on the words before. The list is newest
first, so that `W[t−k]` stands at index `k−1` when `W[t]` is computed. -/
def growSchedule {w : Nat} (next : List (BitVec w) → BitVec w) :
    Nat → List (BitVec w) → List (BitVec w)
  | 0, ws => ws
  | n + 1, ws => growSchedule next n (next ws :: ws)

/-- A schedule of `16 + n` words in the order `W[0], W[1], …` from the 16 message words. -/
def schedule {w : Nat} (next : List (BitVec w) → BitVec w) (n : Nat) (m : List (BitVec w)) :
    List (BitVec w) :=
  (growSchedule next n m.reverse).reverse

/-- The message words `be32(block[4j .. 4j+3])`, `j = 0..15` (R131, R141). -/
def be32Words (block : List Byte) : List Word32 :=
  (List.range 16).map fun j => be32 (slice block (4 * j) 4)

/-- The five working words (R130, R135). -/
structure Sha1Words where
  a : Word32
  b : Word32
  c : Word32
  d : Word32
  e : Word32
  deriving DecidableEq, Repr

/-- The initial vector (R132). -/
def sha1IV : Sha1Words := ⟨0x67452301, 0xefcdab89, 0x98badcfe, 0x10325476, 0xc3d2e1f0⟩

/-- `W[t] = rotl_32(W[t−3] ^ W[t−8] ^ W[t−14] ^ W[t−16], 1)` (R133). -/
def sha1Next (ws : List Word32) : Word32 :=
  rotl (ws.getD 2 0 ^^^ ws.getD 7 0 ^^^ ws.getD 13 0 ^^^ ws.getD 15 0) 1

/-- The message schedule, 80 words (R131, R133). -/
def sha1Schedule (block : List Byte) : List Word32 := schedule sha1Next 64 (be32Words block)

/-- The step function `f_t(b, c, d)`: Ch, Parity, Maj, Parity by ranges of 20 (R134). -/
def sha1Fn (t : Nat) (b c d : Word32) : Word32 :=
  if t ≤ 19 then (b &&& c) ^^^ (~~~b &&& d)
  else if t ≤ 39 then b ^^^ c ^^^ d
  else if t ≤ 59 then (b &&& c) ^^^ (b &&& d) ^^^ (c &&& d)
  else b ^^^ c ^^^ d

/-- The step constant `K_t` (R134). -/
def sha1K (t : Nat) : Word32 :=
  if t ≤ 19 then 0x5a827999
  else if t ≤ 39 then 0x6ed9eba1
  else if t ≤ 59 then 0x8f1bbcdc
  else 0xca62c1d6

/-- One step (R135). -/
def sha1Step (ws : List Word32) (v : Sha1Words) (t : Nat) : Sha1Words :=
  ⟨rotl v.a 5 + sha1Fn t v.b v.c v.d + v.e + sha1K t + ws.getD t 0, v.a, rotl v.b 30, v.c, v.d⟩

/-- The working words after `n` steps from `v` (R137). -/
def sha1Rounds (ws : List Word32) (v : Sha1Words) (n : Nat) : Sha1Words :=
  (List.range n).foldl (sha1Step ws) v

/-- `sha1_compress` (R137): 80 steps and the feed-forward addition (R136). -/
def sha1Compress (h : Sha1Words) (block : List Byte) : Sha1Words :=
  let v := sha1Rounds (sha1Schedule block) h 80
  ⟨h.a + v.a, h.b + v.b, h.c + v.c, h.d + v.d, h.e + v.e⟩

end Sys2Proof.Machine
end

