-- ==== Sys2Proof/Machine/Sha256.lean ====
section
/-! DEFINITION. The shape the two SHA-2 compression functions share, and the 32-bit one
(42_sha1_sha256_compress.md section 2). Formulas and tables are the spec's, marked there as
general knowledge (G11 to G16; log entry 10). -/

namespace Sys2Proof.Machine

/-- The eight working words of a SHA-2 compression (R140, R147, R160, R167). -/
structure Sha2Words (w : Nat) where
  a : BitVec w
  b : BitVec w
  c : BitVec w
  d : BitVec w
  e : BitVec w
  f : BitVec w
  g : BitVec w
  h : BitVec w
  deriving DecidableEq, Repr

/-- `Ch` (R144, R164). -/
def sha2Ch {w : Nat} (x y z : BitVec w) : BitVec w := (x &&& y) ^^^ (~~~x &&& z)

/-- `Maj` (R144, R164). -/
def sha2Maj {w : Nat} (x y z : BitVec w) : BitVec w := (x &&& y) ^^^ (x &&& z) ^^^ (y &&& z)

/-- One step with the two big sigmas, the constant `k` and the schedule word `wt` (R147, R167). -/
def sha2Step {w : Nat} (bsig0 bsig1 : BitVec w → BitVec w) (v : Sha2Words w) (k wt : BitVec w) :
    Sha2Words w :=
  let t1 := v.h + bsig1 v.e + sha2Ch v.e v.f v.g + k + wt
  let t2 := bsig0 v.a + sha2Maj v.a v.b v.c
  ⟨t1 + t2, v.a, v.b, v.c, v.d + t1, v.e, v.f, v.g⟩

/-- The feed-forward addition (R148, R168). -/
def sha2Add {w : Nat} (h v : Sha2Words w) : Sha2Words w :=
  ⟨h.a + v.a, h.b + v.b, h.c + v.c, h.d + v.d, h.e + v.e, h.f + v.f, h.g + v.g, h.h + v.h⟩

/-- The initial vector of SHA256 (R142). -/
def sha256IV : Sha2Words 32 :=
  ⟨0x6a09e667, 0xbb67ae85, 0x3c6ef372, 0xa54ff53a, 0x510e527f, 0x9b05688c, 0x1f83d9ab, 0x5be0cd19⟩

/-- The initial vector of SHA224 (R143). -/
def sha224IV : Sha2Words 32 :=
  ⟨0xc1059ed8, 0x367cd507, 0x3070dd17, 0xf70e5939, 0xffc00b31, 0x68581511, 0x64f98fa7, 0xbefa4fa4⟩

/-- `BSIG0` at 32 bits (R144). -/
def sha256BSIG0 (x : Word32) : Word32 := rotr x 2 ^^^ rotr x 13 ^^^ rotr x 22

/-- `BSIG1` at 32 bits (R144). -/
def sha256BSIG1 (x : Word32) : Word32 := rotr x 6 ^^^ rotr x 11 ^^^ rotr x 25

/-- `SSIG0` at 32 bits (R144). -/
def sha256SSIG0 (x : Word32) : Word32 := rotr x 7 ^^^ rotr x 18 ^^^ shr x 3

/-- `SSIG1` at 32 bits (R144). -/
def sha256SSIG1 (x : Word32) : Word32 := rotr x 17 ^^^ rotr x 19 ^^^ shr x 10

/-- `W[t] = SSIG1(W[t−2]) + W[t−7] + SSIG0(W[t−15]) + W[t−16]` at 32 bits (R145). -/
def sha256Next (ws : List Word32) : Word32 :=
  sha256SSIG1 (ws.getD 1 0) + ws.getD 6 0 + sha256SSIG0 (ws.getD 14 0) + ws.getD 15 0

/-- The message schedule, 64 words (R141, R145). -/
def sha256Schedule (block : List Byte) : List Word32 := schedule sha256Next 48 (be32Words block)

/-- The round constants, `K[0]` first, in the rows of four of the spec's table (R146). -/
def sha256KRows : List (List Word32) :=
  [[0x428a2f98, 0x71374491, 0xb5c0fbcf, 0xe9b5dba5],
   [0x3956c25b, 0x59f111f1, 0x923f82a4, 0xab1c5ed5],
   [0xd807aa98, 0x12835b01, 0x243185be, 0x550c7dc3],
   [0x72be5d74, 0x80deb1fe, 0x9bdc06a7, 0xc19bf174]] ++
  [[0xe49b69c1, 0xefbe4786, 0x0fc19dc6, 0x240ca1cc],
   [0x2de92c6f, 0x4a7484aa, 0x5cb0a9dc, 0x76f988da],
   [0x983e5152, 0xa831c66d, 0xb00327c8, 0xbf597fc7],
   [0xc6e00bf3, 0xd5a79147, 0x06ca6351, 0x14292967]] ++
  [[0x27b70a85, 0x2e1b2138, 0x4d2c6dfc, 0x53380d13],
   [0x650a7354, 0x766a0abb, 0x81c2c92e, 0x92722c85],
   [0xa2bfe8a1, 0xa81a664b, 0xc24b8b70, 0xc76c51a3],
   [0xd192e819, 0xd6990624, 0xf40e3585, 0x106aa070]] ++
  [[0x19a4c116, 0x1e376c08, 0x2748774c, 0x34b0bcb5],
   [0x391c0cb3, 0x4ed8aa4a, 0x5b9cca4f, 0x682e6ff3],
   [0x748f82ee, 0x78a5636f, 0x84c87814, 0x8cc70208],
   [0x90befffa, 0xa4506ceb, 0xbef9a3f7, 0xc67178f2]]

/-- `K[t]` at index `t`. -/
def sha256K : List Word32 := sha256KRows.flatten

/-- One step at index `t` (R147). -/
def sha256Step (ws : List Word32) (v : Sha2Words 32) (t : Nat) : Sha2Words 32 :=
  sha2Step sha256BSIG0 sha256BSIG1 v (sha256K.getD t 0) (ws.getD t 0)

/-- The working words after `n` steps from `v` (R149). -/
def sha256Rounds (ws : List Word32) (v : Sha2Words 32) (n : Nat) : Sha2Words 32 :=
  (List.range n).foldl (sha256Step ws) v

/-- `sha256_compress` (R149), for SHA224 and SHA256. -/
def sha256Compress (h : Sha2Words 32) (block : List Byte) : Sha2Words 32 :=
  sha2Add h (sha256Rounds (sha256Schedule block) h 64)

end Sys2Proof.Machine
end

