-- ==== Sys2Proof/Machine/Sha512.lean ====
section
/-! DEFINITION. The 64-bit SHA compression function (43_sha512_compress.md). Its rotation and
shift amounts are a set of their own (R164). Formulas and tables are the spec's, marked there as
general knowledge (G17 to G21; log entry 10). -/

namespace Sys2Proof.Machine

/-- The initial vector of SHA512 (R162). -/
def sha512IV : Sha2Words 64 :=
  ⟨0x6a09e667f3bcc908, 0xbb67ae8584caa73b, 0x3c6ef372fe94f82b, 0xa54ff53a5f1d36f1,
   0x510e527fade682d1, 0x9b05688c2b3e6c1f, 0x1f83d9abfb41bd6b, 0x5be0cd19137e2179⟩

/-- The initial vector of SHA384 (R163). -/
def sha384IV : Sha2Words 64 :=
  ⟨0xcbbb9d5dc1059ed8, 0x629a292a367cd507, 0x9159015a3070dd17, 0x152fecd8f70e5939,
   0x67332667ffc00b31, 0x8eb44a8768581511, 0xdb0c2e0d64f98fa7, 0x47b5481dbefa4fa4⟩

/-- `BSIG0` at 64 bits (R164). -/
def sha512BSIG0 (x : Word64) : Word64 := rotr x 28 ^^^ rotr x 34 ^^^ rotr x 39

/-- `BSIG1` at 64 bits (R164). -/
def sha512BSIG1 (x : Word64) : Word64 := rotr x 14 ^^^ rotr x 18 ^^^ rotr x 41

/-- `SSIG0` at 64 bits (R164). -/
def sha512SSIG0 (x : Word64) : Word64 := rotr x 1 ^^^ rotr x 8 ^^^ shr x 7

/-- `SSIG1` at 64 bits (R164). -/
def sha512SSIG1 (x : Word64) : Word64 := rotr x 19 ^^^ rotr x 61 ^^^ shr x 6

/-- `W[t] = SSIG1(W[t−2]) + W[t−7] + SSIG0(W[t−15]) + W[t−16]` at 64 bits (R165). -/
def sha512Next (ws : List Word64) : Word64 :=
  sha512SSIG1 (ws.getD 1 0) + ws.getD 6 0 + sha512SSIG0 (ws.getD 14 0) + ws.getD 15 0

/-- The message words `be64(block[8j .. 8j+7])`, `j = 0..15` (R161). -/
def be64Words (block : List Byte) : List Word64 :=
  (List.range 16).map fun j => be64 (slice block (8 * j) 8)

/-- The message schedule, 80 words (R161, R165). -/
def sha512Schedule (block : List Byte) : List Word64 := schedule sha512Next 64 (be64Words block)

/-- The round constants, `K[0]` first, in the rows of two of the spec's table (R166). -/
def sha512KRows : List (List Word64) :=
  [[0x428a2f98d728ae22, 0x7137449123ef65cd],
   [0xb5c0fbcfec4d3b2f, 0xe9b5dba58189dbbc],
   [0x3956c25bf348b538, 0x59f111f1b605d019],
   [0x923f82a4af194f9b, 0xab1c5ed5da6d8118],
   [0xd807aa98a3030242, 0x12835b0145706fbe],
   [0x243185be4ee4b28c, 0x550c7dc3d5ffb4e2],
   [0x72be5d74f27b896f, 0x80deb1fe3b1696b1],
   [0x9bdc06a725c71235, 0xc19bf174cf692694]] ++
  [[0xe49b69c19ef14ad2, 0xefbe4786384f25e3],
   [0x0fc19dc68b8cd5b5, 0x240ca1cc77ac9c65],
   [0x2de92c6f592b0275, 0x4a7484aa6ea6e483],
   [0x5cb0a9dcbd41fbd4, 0x76f988da831153b5],
   [0x983e5152ee66dfab, 0xa831c66d2db43210],
   [0xb00327c898fb213f, 0xbf597fc7beef0ee4],
   [0xc6e00bf33da88fc2, 0xd5a79147930aa725],
   [0x06ca6351e003826f, 0x142929670a0e6e70]] ++
  [[0x27b70a8546d22ffc, 0x2e1b21385c26c926],
   [0x4d2c6dfc5ac42aed, 0x53380d139d95b3df],
   [0x650a73548baf63de, 0x766a0abb3c77b2a8],
   [0x81c2c92e47edaee6, 0x92722c851482353b],
   [0xa2bfe8a14cf10364, 0xa81a664bbc423001],
   [0xc24b8b70d0f89791, 0xc76c51a30654be30],
   [0xd192e819d6ef5218, 0xd69906245565a910],
   [0xf40e35855771202a, 0x106aa07032bbd1b8]] ++
  [[0x19a4c116b8d2d0c8, 0x1e376c085141ab53],
   [0x2748774cdf8eeb99, 0x34b0bcb5e19b48a8],
   [0x391c0cb3c5c95a63, 0x4ed8aa4ae3418acb],
   [0x5b9cca4f7763e373, 0x682e6ff3d6b2b8a3],
   [0x748f82ee5defb2fc, 0x78a5636f43172f60],
   [0x84c87814a1f0ab72, 0x8cc702081a6439ec],
   [0x90befffa23631e28, 0xa4506cebde82bde9],
   [0xbef9a3f7b2c67915, 0xc67178f2e372532b]] ++
  [[0xca273eceea26619c, 0xd186b8c721c0c207],
   [0xeada7dd6cde0eb1e, 0xf57d4f7fee6ed178],
   [0x06f067aa72176fba, 0x0a637dc5a2c898a6],
   [0x113f9804bef90dae, 0x1b710b35131c471b],
   [0x28db77f523047d84, 0x32caab7b40c72493],
   [0x3c9ebe0a15c9bebc, 0x431d67c49c100d4c],
   [0x4cc5d4becb3e42b6, 0x597f299cfc657e2a],
   [0x5fcb6fab3ad6faec, 0x6c44198c4a475817]]

/-- `K[t]` at index `t`. -/
def sha512K : List Word64 := sha512KRows.flatten

/-- One step at index `t` (R167). -/
def sha512Step (ws : List Word64) (v : Sha2Words 64) (t : Nat) : Sha2Words 64 :=
  sha2Step sha512BSIG0 sha512BSIG1 v (sha512K.getD t 0) (ws.getD t 0)

/-- The working words after `n` steps from `v` (R169). -/
def sha512Rounds (ws : List Word64) (v : Sha2Words 64) (n : Nat) : Sha2Words 64 :=
  (List.range n).foldl (sha512Step ws) v

/-- `sha512_compress` (R169), for SHA384 and SHA512. -/
def sha512Compress (h : Sha2Words 64) (block : List Byte) : Sha2Words 64 :=
  sha2Add h (sha512Rounds (sha512Schedule block) h 80)

end Sys2Proof.Machine
end

