-- ==== Sys2Proof/Machine/BlockBuffer.lean ====
section
/-! DEFINITION. The BlockBuffer (40_blockbuffer.md): how the hash-word registers carry each
algorithm's words, the dispatch to the compression functions, and `feed`. -/

namespace Sys2Proof.Machine

/-- The 32-bit hash word a register carries: bits [31:0] (10_state.md R21). -/
def lowWord (v : Word64) : Word32 := v.setWidth 32

/-- A 32-bit hash word in a register: bits [63:32] are 0 (R21). -/
def zextWord (v : Word32) : Word64 := v.setWidth 64

/-- The operands of `md5_compress`: the low halves of `H[0..3]` (R110). -/
def loadMd5 (h : HashRegs) : Md5Words :=
  ⟨lowWord h[0], lowWord h[1], lowWord h[2], lowWord h[3]⟩

/-- `H[0..3]` written, `H[4..7]` left as they are (R103, R110). -/
def storeMd5 (v : Md5Words) (h : HashRegs) : HashRegs :=
  #v[zextWord v.a, zextWord v.b, zextWord v.c, zextWord v.d, h[4], h[5], h[6], h[7]]

/-- The operands of `sha1_compress`: the low halves of `H[0..4]` (R130). -/
def loadSha1 (h : HashRegs) : Sha1Words :=
  ⟨lowWord h[0], lowWord h[1], lowWord h[2], lowWord h[3], lowWord h[4]⟩

/-- `H[0..4]` written, `H[5..7]` left as they are (R103, R130). -/
def storeSha1 (v : Sha1Words) (h : HashRegs) : HashRegs :=
  #v[zextWord v.a, zextWord v.b, zextWord v.c, zextWord v.d, zextWord v.e, h[5], h[6], h[7]]

/-- The operands of `sha256_compress`: the low halves of `H[0..7]` (R140). -/
def loadSha256 (h : HashRegs) : Sha2Words 32 :=
  ⟨lowWord h[0], lowWord h[1], lowWord h[2], lowWord h[3],
   lowWord h[4], lowWord h[5], lowWord h[6], lowWord h[7]⟩

/-- `H[0..7]` written with upper halves 0 (R140). -/
def storeSha256 (v : Sha2Words 32) : HashRegs :=
  #v[zextWord v.a, zextWord v.b, zextWord v.c, zextWord v.d,
     zextWord v.e, zextWord v.f, zextWord v.g, zextWord v.h]

/-- The operands of `sha512_compress`: all of `H[0..7]` (R160). -/
def loadSha512 (h : HashRegs) : Sha2Words 64 :=
  ⟨h[0], h[1], h[2], h[3], h[4], h[5], h[6], h[7]⟩

/-- `H[0..7]` written (R160). -/
def storeSha512 (v : Sha2Words 64) : HashRegs :=
  #v[v.a, v.b, v.c, v.d, v.e, v.f, v.g, v.h]

/-- `compress(ALG, H, block)` (R103). -/
def compress (a : Alg) (h : HashRegs) (block : List Byte) : HashRegs :=
  match a with
  | .md5 => storeMd5 (md5Compress (loadMd5 h) block) h
  | .sha1 => storeSha1 (sha1Compress (loadSha1 h) block) h
  | .sha224 | .sha256 => storeSha256 (sha256Compress (loadSha256 h) block)
  | .sha384 | .sha512 => storeSha512 (sha512Compress (loadSha512 h) block)

/-- The buffer after a byte that does not fill it: `BUFLEN <- BUFLEN + 1` (R101). -/
def State.keepByte (s : State) (m : Memory) : State := { s with buf := m, buflen := s.buflen + 1 }

/-- The flush: `H <- compress(ALG, H, block)`, `BUFLEN <- 0`; `BUF` is not cleared (R101, R105). -/
def State.flushBlock (s : State) (m : Memory) (block : List Byte) : State :=
  { s with buf := m, buflen := 0, h := compress s.alg s.h block }

/-- `MemWrite(BUFLEN, 1, b)`, `BUFLEN <- BUFLEN + 1`, and the eager flush when the buffer holds `B`
bytes (R101). A flush does not clear `BUF` (R105; log entry 7). -/
def feedByte (b : Byte) (s : State) : Except Fault State :=
  match memWrite s.buf s.buflen.toNat b with
  | .error f => .error f
  | .ok m =>
    if s.buflen.toNat + 1 = blockBytes s.alg then
      match memRead m 0 (blockBytes s.alg) with
      | .error f => .error f
      | .ok block => .ok (s.flushBlock m block)
    else .ok (s.keepByte m)

/-- `feed(data)` (R101): the bytes one at a time, in order. It never touches `LEN` (R100). -/
def feed : List Byte → State → Except Fault State
  | [], s => .ok s
  | b :: data, s =>
    match feedByte b s with
    | .error f => .error f
    | .ok t => feed data t

/-- The address at which byte `k` of a feed is stored, for a feed that begins with `BUFLEN = n`
below the block size (R101: `BUFLEN` advances by one and wraps to 0 at `B`). -/
def feedAddress (a : Alg) (n k : Nat) : Nat := (n + k) % blockBytes a

end Sys2Proof.Machine
end

