-- ==== Sys2Proof/Machine/Padding.lean ====
section
/-! DEFINITION. Padding & Length Encoding (44_padding.md). -/

namespace Sys2Proof.Machine

/-- `z = (B − Lf − (BUFLEN + 1)) mod B`, with `mod` giving a result in `0 .. B−1` (R182). The
multiple `2B` keeps the dividend from falling below zero for `BUFLEN < B`. -/
def padZeros (a : Alg) (buflen : Nat) : Nat :=
  (2 * blockBytes a - lengthFieldBytes a - (buflen + 1)) % blockBytes a

/-- `padstr = 0x80 ‖ (z × 0x00) ‖ lenfield` (R181). -/
def padString (a : Alg) (buflen len : Nat) : List Byte :=
  [0x80#8] ++ List.replicate (padZeros a buflen) 0x00#8 ++ lengthField a len

/-- `pad_and_compress()` in its one-line form, `feed(padstr)` (R185); its precondition is
`BUFLEN < B` (log entry 9). -/
def padAndCompress (s : State) : Except Fault State :=
  if s.buflen.toNat < blockBytes s.alg then
    feed (padString s.alg s.buflen.toNat s.len.toNat) s
  else .error .padPrecondition

/-- The phase ZERO of the padding FSM (R185): feed `0x00` until `BUFLEN = B − Lf`. The first
argument bounds the iterations. -/
def padZeroPhase : Nat → State → Except Fault State
  | 0, s => .ok s
  | n + 1, s =>
    if s.buflen.toNat = blockBytes s.alg - lengthFieldBytes s.alg then .ok s
    else
      match feed [0x00#8] s with
      | .error f => .error f
      | .ok t => padZeroPhase n t

/-- The padding FSM phase by phase: MARK, ZERO, LEN, DONE (R185). It is the hardware view of
`padAndCompress`; no command calls it, and a statement says that the two agree. -/
def padFsm (s : State) : Except Fault State :=
  match feed [0x80#8] s with
  | .error f => .error f
  | .ok marked =>
    match padZeroPhase (blockBytes s.alg) marked with
    | .error f => .error f
    | .ok zeroed => feed (lengthField s.alg s.len.toNat) zeroed

end Sys2Proof.Machine
end

