-- ==== Sys2Proof/Machine/Context.lean ====
section
/-! DEFINITION. The DigestContext commands NEW, UPDATE and FINALIZE (45_context_commands.md). -/

namespace Sys2Proof.Machine

/-- `IV(alg)` in the register file; `H[NH..7]` are 0 (R191, R192). -/
def initialHash (a : Alg) : HashRegs :=
  match a with
  | .md5 => storeMd5 md5IV (Vector.replicate Config.nhmax 0)
  | .sha1 => storeSha1 sha1IV (Vector.replicate Config.nhmax 0)
  | .sha224 => storeSha256 sha224IV
  | .sha256 => storeSha256 sha256IV
  | .sha384 => storeSha512 sha384IV
  | .sha512 => storeSha512 sha512IV

/-- A Fresh context for an algorithm (R191). `BUF` and `DIGEST` are not cleared (R192). -/
def newContext (a : Alg) (s : State) : State :=
  { s with st := .fresh, alg := a, h := initialHash a, buflen := 0, len := 0, dlen := 0 }

/-- NEW with a supported algorithm: accepted in every state (R191, R193). -/
def newSupported (a : Alg) (s : State) : Host.Outcome State Fault Refusal :=
  framed 0 (fun s => respond .ok [] (newContext a s)) s

/-- NEW with an id 6 to 15 raises UnsupportedAlgorithm in every state (R194). -/
def newUnsupported (s : State) : Host.Outcome State Fault Refusal :=
  framed 0 (raise .unsupportedAlgorithm) s

def execNewMd5 (s : State) : Host.Outcome State Fault Refusal := newSupported .md5 s

def execNewSha1 (s : State) : Host.Outcome State Fault Refusal := newSupported .sha1 s

def execNewSha224 (s : State) : Host.Outcome State Fault Refusal := newSupported .sha224 s

def execNewSha256 (s : State) : Host.Outcome State Fault Refusal := newSupported .sha256 s

def execNewSha384 (s : State) : Host.Outcome State Fault Refusal := newSupported .sha384 s

def execNewSha512 (s : State) : Host.Outcome State Fault Refusal := newSupported .sha512 s

def execNewUnsupported6 (s : State) : Host.Outcome State Fault Refusal := newUnsupported s

def execNewUnsupported7 (s : State) : Host.Outcome State Fault Refusal := newUnsupported s

def execNewUnsupported8 (s : State) : Host.Outcome State Fault Refusal := newUnsupported s

def execNewUnsupported9 (s : State) : Host.Outcome State Fault Refusal := newUnsupported s

def execNewUnsupported10 (s : State) : Host.Outcome State Fault Refusal := newUnsupported s

def execNewUnsupported11 (s : State) : Host.Outcome State Fault Refusal := newUnsupported s

def execNewUnsupported12 (s : State) : Host.Outcome State Fault Refusal := newUnsupported s

def execNewUnsupported13 (s : State) : Host.Outcome State Fault Refusal := newUnsupported s

def execNewUnsupported14 (s : State) : Host.Outcome State Fault Refusal := newUnsupported s

def execNewUnsupported15 (s : State) : Host.Outcome State Fault Refusal := newUnsupported s

/-- `LEN <- LEN + 8·n`, `ST <- Active` (R195). -/
def countBits (n : Nat) (s : State) : State :=
  { s with len := s.len + BitVec.ofNat Config.lenw (8 * n), st := .active }

/-- UPDATE in a Fresh or Active context: the length check on integers, before any byte is fed,
then `feed`, the count and Active (R195, R196). -/
def updateContext (n : Nat) (s : State) : Host.Outcome State Fault Refusal :=
  if s.len.toNat + 8 * n > maxBits s.alg then raise .lengthOverflow s
  else
    match feed s.din s with
    | .error f => .fault f
    | .ok t => respond .ok [] (countBits n t)

/-- UPDATE `n` (R195 to R198): InvalidState in Idle and Finalized. -/
def execUpdate (n : Nat) (s : State) : Host.Outcome State Fault Refusal :=
  framed n (fun s =>
    match s.st with
    | .idle | .finalized => raise .invalidState s
    | .fresh | .active => updateContext n s) s

/-- The full serialisation `ser`: `H[0]`, …, `H[NH−1]`, each as `w/8` bytes in the byte order of the
algorithm (R203). -/
def serialise (a : Alg) (h : HashRegs) : List Byte :=
  (List.range (hashWords a)).flatMap fun i => wordBytes a (h.toList.getD i 0)

/-- The digest a register file stands for: the first `DLEN(alg)` bytes of `ser` (R203). -/
def digestOf (a : Alg) (h : HashRegs) : List Byte := (serialise a h).take (digestBytes a)

/-- `DLEN`, `DIGEST[0 .. DLEN−1]` and `ST` written at the end of FINALIZE (R200, R204). -/
def latchDigest (s : State) : State :=
  { s with dlen := BitVec.ofNat 7 (digestBytes s.alg),
           digest := writeDigest s.digest (digestOf s.alg s.h), st := .finalized }

/-- FINALIZE in a Fresh or Active context: pad, latch, and answer `DIGEST[0 .. DLEN−1]` (R200). -/
def finalizeContext (s : State) : Host.Outcome State Fault Refusal :=
  match padAndCompress s with
  | .error f => .fault f
  | .ok t => respond .ok (latchDigest t).heldDigest (latchDigest t)

/-- FINALIZE (R200 to R202): InvalidState in Idle and Finalized. -/
def execFinalize (s : State) : Host.Outcome State Fault Refusal :=
  framed 0 (fun s =>
    match s.st with
    | .idle | .finalized => raise .invalidState s
    | .fresh | .active => finalizeContext s) s

end Sys2Proof.Machine
end

