-- ==== Sys2Proof/Machine/Formatter.lean ====
section
/-! DEFINITION. The Output Formatter (46_formatter.md). -/

namespace Sys2Proof.Machine

/-- `hexdigit(v)`: `0x30 + v` for 0 to 9, `0x61 + (v − 10)` for 10 to 15 (R223). -/
def hexDigit (v : BitVec 4) : Byte :=
  if v.toNat < 10 then BitVec.ofNat 8 (0x30 + v.toNat) else BitVec.ofNat 8 (0x61 + (v.toNat - 10))

/-- One byte as two lowercase hex characters, the high nibble first (R222). -/
def hexByte (b : Byte) : List Byte := [hexDigit (b.extractLsb' 4 4), hexDigit (b.extractLsb' 0 4)]

/-- The hex rendering of a byte sequence, no separators (R222). -/
def hexBytes (d : List Byte) : List Byte := d.flatMap hexByte

/-- `val`: the inverse of `hexdigit`, defined on the sixteen bytes it gives (R226). -/
def hexValue (c : Byte) : Option (BitVec 4) :=
  if 0x30 ≤ c.toNat ∧ c.toNat ≤ 0x39 then some (BitVec.ofNat 4 (c.toNat - 0x30))
  else if 0x61 ≤ c.toNat ∧ c.toNat ≤ 0x66 then some (BitVec.ofNat 4 (c.toNat - 0x61 + 10))
  else none

/-- `unhex`: defined on even-length sequences of hex characters; the pair `(c1, c2)` gives the byte
`16·val(c1) + val(c2)` (R226). No command computes it. -/
def unhex : List Byte → Option (List Byte)
  | [] => some []
  | [_] => none
  | c1 :: c2 :: s =>
    match hexValue c1, hexValue c2, unhex s with
    | some hi, some lo, some d => some (BitVec.ofNat 8 (16 * hi.toNat + lo.toNat) :: d)
    | _, _, _ => none

/-- The rendering of a digest in a mode (R221, R222). -/
def render (m : Mode) (d : List Byte) : List Byte :=
  match m with
  | .raw => d
  | .hex => hexBytes d

/-- FORMAT: InvalidState unless Finalized, else the held digest rendered; nothing is written
(R220, R224, R225). -/
def formatDigest (m : Mode) (s : State) : Host.Outcome State Fault Refusal :=
  framed 0 (fun s =>
    match s.st with
    | .idle | .fresh | .active => raise .invalidState s
    | .finalized => respond .ok (render m s.heldDigest) s) s

def execFormatRaw (s : State) : Host.Outcome State Fault Refusal := formatDigest .raw s

def execFormatHex (s : State) : Host.Outcome State Fault Refusal := formatDigest .hex s

end Sys2Proof.Machine
end

