-- ==== Sys2Proof/Machine/Dispatch.lean ====
section
/-! DEFINITION. Which meaning each command has: one arm per constructor. -/

namespace Sys2Proof.Machine

def exec (i : Instr) (s : State) : Host.Outcome State Fault Refusal :=
  match i with
  | .newMd5 => Sys2Proof.Machine.execNewMd5 s
  | .newSha1 => Sys2Proof.Machine.execNewSha1 s
  | .newSha224 => Sys2Proof.Machine.execNewSha224 s
  | .newSha256 => Sys2Proof.Machine.execNewSha256 s
  | .newSha384 => Sys2Proof.Machine.execNewSha384 s
  | .newSha512 => Sys2Proof.Machine.execNewSha512 s
  | .newUnsupported6 => Sys2Proof.Machine.execNewUnsupported6 s
  | .newUnsupported7 => Sys2Proof.Machine.execNewUnsupported7 s
  | .newUnsupported8 => Sys2Proof.Machine.execNewUnsupported8 s
  | .newUnsupported9 => Sys2Proof.Machine.execNewUnsupported9 s
  | .newUnsupported10 => Sys2Proof.Machine.execNewUnsupported10 s
  | .newUnsupported11 => Sys2Proof.Machine.execNewUnsupported11 s
  | .newUnsupported12 => Sys2Proof.Machine.execNewUnsupported12 s
  | .newUnsupported13 => Sys2Proof.Machine.execNewUnsupported13 s
  | .newUnsupported14 => Sys2Proof.Machine.execNewUnsupported14 s
  | .newUnsupported15 => Sys2Proof.Machine.execNewUnsupported15 s
  | .update n => Sys2Proof.Machine.execUpdate n s
  | .finalize => Sys2Proof.Machine.execFinalize s
  | .formatRaw => Sys2Proof.Machine.execFormatRaw s
  | .formatHex => Sys2Proof.Machine.execFormatHex s

end Sys2Proof.Machine
end

