-- ==== Sys2Proof/Machine/Step.lean ====
section
/-! DEFINITION. One step: the next input of the host, at a command boundary (00_scope.md R7, R15;
70_reset_and_hazards.md R270, R271). -/

namespace Sys2Proof.Machine

/-- With no input presented the engine waits, its state as it is (60_exceptions.md R249, R261; log
entry 3). RESET gives the reset state (R260). A command is presented, decoded and executed; an
illegal word raises IllegalCommand (30_encoding.md R80). -/
def step (s : State) : Host.Outcome State Fault Refusal :=
  match s.host with
  | [] => .next s
  | .reset :: rest => .next (takeReset rest)
  | .command c :: rest =>
    match decode c.word with
    | .ok i => exec i (s.present c.payload rest)
    | .error _ => execIllegal (paylen c.word) (s.present c.payload rest)

/-- The state in which the host's next input is the command of a table word: the word on CMD and,
for an UPDATE, its `cnt` payload bytes, all 0, on DIN. A numeral of more than 32 bits is no command
word and leaves the state as it is (log entry 14). -/
def State.withFetchWord (s : State) (nbits w : Nat) : State :=
  match tableWord nbits w with
  | some word =>
    { s with host := .command ⟨word, List.replicate (paylen word) 0x00#8⟩ :: s.host }
  | none => s

end Sys2Proof.Machine
end

