-- ==== Sys2Proof/Machine/HostSide.lean ====
section
/-! DEFINITION. The host's side of the ports: the assembler's commands and pseudo-commands
(30_encoding.md R84, R85), a run of commands and its observation (70_reset_and_hazards.md R270),
and the one-shot DIGEST (45_context_commands.md R206). None of it is engine state or an engine
command. -/

namespace Sys2Proof.Machine

/-- The word of a parameterless command, with no payload. -/
def commandOf (i : Instr) : Command := ⟨encode i, []⟩

/-- NEW by algorithm. -/
def newInstr : Alg → Instr
  | .md5 => .newMd5
  | .sha1 => .newSha1
  | .sha224 => .newSha224
  | .sha256 => .newSha256
  | .sha384 => .newSha384
  | .sha512 => .newSha512

/-- FORMAT by mode. -/
def formatInstr : Mode → Instr
  | .raw => .formatRaw
  | .hex => .formatHex

/-- `NEW <name>`: names are case-sensitive, and a name of no algorithm is encoded as id 15 (R84). -/
def assembleNew (name : String) : Instr :=
  if name = "MD5" then .newMd5
  else if name = "SHA1" then .newSha1
  else if name = "SHA224" then .newSha224
  else if name = "SHA256" then .newSha256
  else if name = "SHA384" then .newSha384
  else if name = "SHA512" then .newSha512
  else .newUnsupported15

/-- The most bytes one UPDATE carries: `2^24 − 1` (R75). -/
def maxChunk : Nat := 2 ^ Config.cntw - 1

/-- Consecutive slices of at most `maxChunk` bytes; the empty sequence is one empty slice. The
slices are as long as they can be (DESIGN CHOICE, log entry 13). -/
def chunks (data : List Byte) : List (List Byte) :=
  (List.range (max 1 ((data.length + maxChunk - 1) / maxChunk))).map fun j =>
    slice data (j * maxChunk) maxChunk

/-- One UPDATE carrying a chunk of at most `maxChunk` bytes (R84). -/
def updateCommand (data : List Byte) : Command := ⟨encode (.update data.length), data⟩

/-- `UPDATE <bytes>` of any length: one UPDATE per slice (R85 (b)). -/
def updateCommands (data : List Byte) : List Command := (chunks data).map updateCommand

/-- `DIGEST <alg>, <mode>, <bytes>`: NEW, UPDATE, FINALIZE, FORMAT (R85 (a), R206). -/
def digestCommands (new : Instr) (m : Mode) (data : List Byte) : List Command :=
  [commandOf new] ++ updateCommands data ++ [commandOf .finalize, commandOf (formatInstr m)]

/-- The host presents one command. -/
def issue (c : Command) (s : State) : Host.Outcome State Fault Refusal :=
  step { s with host := .command c :: s.host }

/-- A run of commands in order (R270), stopping where a step stops. -/
def runCommands : List Command → State → Host.Outcome State Fault Refusal
  | [], s => .next s
  | c :: cs, s =>
    match issue c s with
    | .next t => runCommands cs t
    | .fault f => .fault f
    | .refused r => .refused r

/-- The observation of a run (R270): the responses in order, and STATUS at every command boundary,
the one the run starts from first. -/
structure Observation where
  responses : List Response
  status : List (BitVec 32)
  deriving DecidableEq, Repr

/-- What is seen at the boundary before a command answered by `t`, ahead of what follows. -/
def Observation.after (s t : State) (rest : Observation) : Observation :=
  ⟨t.resp.toList ++ rest.responses, statusPort s :: rest.status⟩

/-- A run from a start state with its observation (R270): it ends at the boundary after the last
command, and an empty run shows STATUS at the one boundary it has. -/
def observe : List Command → State → Host.Outcome (State × Observation) Fault Refusal
  | [], s => .next (s, ⟨[], [statusPort s]⟩)
  | c :: cs, s =>
    match issue c s with
    | .next t =>
      match observe cs t with
      | .next (u, seen) => .next (u, seen.after s t)
      | .fault f => .fault f
      | .refused r => .refused r
    | .fault f => .fault f
    | .refused r => .refused r

/-- Whether a state's last response is an error. -/
def State.lastFailed (s : State) : Bool :=
  match s.resp with
  | some r => r.status != .ok
  | none => false

/-- The commands in order, stopping after the first response whose status is not OK (R206). The
result is the state after the last command issued; its `resp` is the pseudo-command's result. -/
def runUntilError : List Command → State → Host.Outcome State Fault Refusal
  | [], s => .next s
  | c :: cs, s =>
    match issue c s with
    | .next t => if t.lastFailed then .next t else runUntilError cs t
    | .fault f => .fault f
    | .refused r => .refused r

/-- The one-shot DIGEST (R206). -/
def digestOnce (new : Instr) (m : Mode) (data : List Byte) (s : State) :
    Host.Outcome State Fault Refusal :=
  runUntilError (digestCommands new m data) s

end Sys2Proof.Machine
end

