-- ==== Sys2Proof/Safety.lean ====
section
/-! DEFINITION. The terms claims are stated in: the invariant of a command boundary (10_state.md
R37), the reference digest of a message, what a context holds of its message (R37 (g)), and when
two states look alike to the host (93_implementation_defined.md U3). -/

namespace Sys2Proof.Machine

/-- A context exists and can take input. -/
def State.isOpen (s : State) : Bool := s.st == .fresh || s.st == .active

/-- The words that 30_encoding.md R80 calls illegal, by their fields. -/
abbrev IllegalFields (w : BitVec 32) : Prop :=
  (opField w = 0 ∨ 5 ≤ (opField w).toNat) ∨ (opField w = 1 ∧ cntField w ≠ 0) ∨
    (opField w = 2 ∧ argField w ≠ 0) ∨ (opField w = 3 ∧ (argField w ≠ 0 ∨ cntField w ≠ 0)) ∨
    (opField w = 4 ∧ (1 < (argField w).toNat ∨ cntField w ≠ 0))

/-- The ten commands that name an algorithm the engine does not have (30_encoding.md R74). -/
def unsupportedInstrs : List Instr :=
  [.newUnsupported6, .newUnsupported7, .newUnsupported8, .newUnsupported9, .newUnsupported10] ++
  [.newUnsupported11, .newUnsupported12, .newUnsupported13, .newUnsupported14, .newUnsupported15]

/-- The status a command word is answered with: the first cause that applies, in the order of
60_exceptions.md R240, each cause as R231 to R234 give it. -/
def firstStatus (w : BitVec 32) (s : State) : Status :=
  if IllegalFields w then .illegalCommand
  else if opField w = 1 then
    if 6 ≤ (argField w).toNat then .unsupportedAlgorithm else .ok
  else if opField w = 2 then
    if s.st = .idle ∨ s.st = .finalized then .invalidState
    else if maxBits s.alg < s.len.toNat + 8 * (cntField w).toNat then .lengthOverflow
    else .ok
  else if opField w = 3 then
    if s.st = .idle ∨ s.st = .finalized then .invalidState else .ok
  else
    if s.st = .finalized then .ok else .invalidState

/-- The invariant of a command boundary: R37 (a) to (f), with R21 (`H[NH..7]` are 0), R29
(`BUFLEN < B`), the buffer's canonical form, and no payload left over. R37 (g) is `Holds`. -/
structure Inv (s : State) : Prop where
  /-- R37 (a). -/
  buflen_eq : s.isOpen → s.buflen.toNat = (s.len.toNat / 8) % blockBytes s.alg
  /-- R29. -/
  buflen_lt : s.buflen.toNat < blockBytes s.alg
  /-- R37 (b). -/
  len_mod : s.len.toNat % 8 = 0
  /-- R37 (b). -/
  len_le : s.len.toNat ≤ maxBits s.alg
  /-- R37 (c). -/
  dlen_iff : s.dlen ≠ 0 ↔ s.st = .finalized
  /-- R37 (c). -/
  dlen_eq : s.st = .finalized → s.dlen.toNat = digestBytes s.alg
  /-- R37 (e). -/
  upper_zero : wordBits s.alg = 32 → ∀ i : Fin Config.nhmax, s.h[i].toNat < 2 ^ 32
  /-- R21. -/
  unused_zero : ∀ i : Fin Config.nhmax, hashWords s.alg ≤ i.val → s.h[i] = 0
  /-- R37 (f). -/
  fresh_init : s.st = .fresh → s.len = 0 ∧ s.buflen = 0 ∧ s.h = initialHash s.alg
  /-- The buffer is in canonical form. -/
  buf_wf : Memory.wf s.buf
  /-- No payload is left over from a command. -/
  din_nil : s.din = []

/-- The whole blocks of `B` bytes of a byte sequence, in order; a remainder is left out. -/
def wholeBlocks (size : Nat) (data : List Byte) : List (List Byte) :=
  (List.range (data.length / size)).map fun j => slice data (j * size) size

/-- The remainder of a byte sequence after its whole blocks. -/
def remainder (size : Nat) (data : List Byte) : List Byte := data.drop (data.length / size * size)

/-- A register file folded through the compression function over the whole blocks of a byte
sequence (R104, R37 (g)). -/
def absorb (a : Alg) (h : HashRegs) (data : List Byte) : HashRegs :=
  (wholeBlocks (blockBytes a) data).foldl (compress a) h

/-- A message with its padding (44_padding.md R181): a whole number of blocks. -/
def paddedMessage (a : Alg) (msg : List Byte) : List Byte :=
  msg ++ padString a (msg.length % blockBytes a) (8 * msg.length)

/-- The digest of a message: its padded form folded from the IV, serialised and truncated. -/
def messageDigest (a : Alg) (msg : List Byte) : List Byte :=
  digestOf a (absorb a (initialHash a) (paddedMessage a msg))

/-- What a Fresh or Active context holds of the message accepted since NEW (R37 (a) and (g)). -/
structure Holds (s : State) (msg : List Byte) : Prop where
  is_open : s.isOpen = true
  len_eq : s.len.toNat = 8 * msg.length
  hash_eq : s.h = absorb s.alg (initialHash s.alg) msg
  buflen_eq : s.buflen.toNat = msg.length % blockBytes s.alg
  tail_eq : s.tail = remainder (blockBytes s.alg) msg

/-- Two states look alike: they agree on everything but the locations no rule reads (U3; R21, R28,
R31, R38): hash words outside an open context and `H[NH..7]`, buffer bytes from `BUFLEN` on or
outside an open context, and digest bytes from `DLEN` on. -/
structure LookAlike (s t : State) : Prop where
  st_eq : s.st = t.st
  alg_eq : s.alg = t.alg
  buflen_eq : s.buflen = t.buflen
  len_eq : s.len = t.len
  dlen_eq : s.dlen = t.dlen
  host_eq : s.host = t.host
  din_eq : s.din = t.din
  resp_eq : s.resp = t.resp
  hash_eq : s.isOpen → ∀ i : Fin Config.nhmax, i.val < hashWords s.alg → s.h[i] = t.h[i]
  tail_eq : s.isOpen → s.tail = t.tail
  digest_eq : s.heldDigest = t.heldDigest

end Sys2Proof.Machine
end

