-- ==== Sys2Proof/Certificates/Slice0/Obligations.lean ====
section
/-! DEFINITION. The statements for the provers. Each docstring names the rules of spec/ that the
statement formalises. -/

open Sys2Proof Sys2Proof.Machine

/-! ### The command word (30_encoding.md) -/

/-- Decoding the word of a well-formed command gives the command back: no field is dropped
(R74, R75, R77, R78, R81). -/
def Obligations.DecodeOfEncodeIsTheCommand : Prop :=
  ∀ i : Instr, i.wf = true → decode (encode i) = .ok i

/-- A word that decodes to a command is that command's word, and the command is well formed (R81:
every word is exactly one of the commands or illegal). -/
def Obligations.EncodeOfDecodeIsTheWord : Prop :=
  ∀ (w : BitVec 32) (i : Instr), decode w = .ok i → i.wf = true ∧ encode i = w

/-- The words of the opcode table, written out from R74 to R78, decode to their commands. -/
def Obligations.TableWordsDecodeToTheirCommands : Prop :=
  decodeTableWord 32 0x10000000 = some .newMd5 ∧
  decodeTableWord 32 0x11000000 = some .newSha1 ∧
  decodeTableWord 32 0x12000000 = some .newSha224 ∧
  decodeTableWord 32 0x13000000 = some .newSha256 ∧
  decodeTableWord 32 0x14000000 = some .newSha384 ∧
  decodeTableWord 32 0x15000000 = some .newSha512 ∧
  decodeTableWord 32 0x16000000 = some .newUnsupported6 ∧
  decodeTableWord 32 0x1f000000 = some .newUnsupported15 ∧
  decodeTableWord 32 0x20000000 = some (.update 0) ∧
  decodeTableWord 32 0x20000003 = some (.update 3) ∧
  decodeTableWord 32 0x20ffffff = some (.update 16777215) ∧
  decodeTableWord 32 0x30000000 = some .finalize ∧
  decodeTableWord 32 0x40000000 = some .formatRaw ∧
  decodeTableWord 32 0x41000000 = some .formatHex ∧
  decodeTableWord 32 0x10000001 = none ∧
  decodeTableWord 32 0x42000000 = none

/-- A word is selected by a row of the opcode map exactly when it decodes to a command, and no word
is selected by two rows (R73, R80, R81). -/
def Obligations.OpcodeRowsSelectTheLegalWordsOnce : Prop :=
  (∀ w : BitVec 32,
    (∃ row ∈ opcodeRows, rowSelects row.2 row.1 w = true) ↔ ∃ i, decode w = .ok i) ∧
  opcodeRows.Pairwise fun p q =>
    ∀ w : BitVec 32, ¬ (rowSelects p.2 p.1 w = true ∧ rowSelects q.2 q.1 w = true)

/-- R80: which words are illegal; an illegal word raises IllegalCommand (status 4) in every state,
writes no state and consumes its `paylen(word)` payload bytes; all-zero and all-ones are illegal. -/
def Obligations.IllegalWordsRaiseIllegalCommand : Prop :=
  (∀ w : BitVec 32, (∃ r, decode w = .error r) ↔ IllegalFields w) ∧
  (∀ (s : State) (c : Command) (rest : List HostInput),
    s.host = .command c :: rest → IllegalFields c.word → c.payload.length = paylen c.word →
    step s = .next { s with host := rest, din := [], resp := some ⟨.illegalCommand, []⟩ }) ∧
  statusCode .illegalCommand = 4 ∧
  IllegalFields 0x00000000 ∧ IllegalFields 0xffffffff

/-! ### The step, the host's inputs, reset -/

/-- When the word the host presents decodes to a command, the step is that command's meaning in the
state where the pair has left the host's list and its payload stands on DIN (R15, R70, R81). -/
def Obligations.StepRunsTheDecodedCommand : Prop :=
  ∀ (s : State) (c : Command) (rest : List HostInput) (i : Instr),
    s.host = .command c :: rest → decode c.word = .ok i →
    step s = exec i { s with host := rest, din := c.payload }

/-- With no input presented the engine waits and nothing changes (R249, R261; the model's reading,
log entry 3). -/
def Obligations.StepWithNoInputChangesNothing : Prop :=
  ∀ s : State, s.host = [] → step s = .next s

/-- R38: the values after reset that the spec states. (The zeros of `H`, `BUF`, `DIGEST` are the
model's choice, log entries 1 and 2, and are not stated here.) -/
def Obligations.ResetStateHasTheStatedValues : Prop :=
  State.reset.st = .idle ∧ State.reset.alg = .md5 ∧ State.reset.buflen = 0 ∧
  State.reset.len = 0 ∧ State.reset.dlen = 0 ∧ statusPort State.reset = 0x00000000

/-- R260: RESET at a command boundary gives the reset state's stated values from every state,
produces no response, and leaves the host's further inputs. (That `resp` and `din` are empty
afterwards is the model's choice, log entries 3 and 4.) -/
def Obligations.ResetInputReturnsToIdle : Prop :=
  ∀ (s : State) (rest : List HostInput), s.host = .reset :: rest →
    ∃ t, step s = .next t ∧ t.st = .idle ∧ t.alg = .md5 ∧ t.buflen = 0 ∧ t.len = 0 ∧ t.dlen = 0 ∧
      statusPort t = 0x00000000 ∧ t.resp = none ∧ t.host = rest ∧ t.din = []

/-- R266: a pair whose payload has not exactly `paylen(word)` bytes is refused as ill-formed, and a
step refuses for no other reason (log entry 5). -/
def Obligations.MispairedPayloadIsRefused : Prop :=
  (∀ (s : State) (c : Command) (rest : List HostInput),
    s.host = .command c :: rest → c.payload.length ≠ paylen c.word →
    step s = .refused .payloadLength) ∧
  (∀ (s : State) (r : Refusal), step s = .refused r →
    r = .payloadLength ∧
      ∃ c rest, s.host = .command c :: rest ∧ c.payload.length ≠ paylen c.word)

/-- The codes of `ST` (R25), of the algorithms (R76) and of a response's status (R82, R235). -/
def Obligations.CodesOfStateAlgorithmAndStatus : Prop :=
  [Lifecycle.idle, .fresh, .active, .finalized].map lifecycleCode = [0, 1, 2, 3] ∧
  [Alg.md5, .sha1, .sha224, .sha256, .sha384, .sha512].map algId = [0, 1, 2, 3, 4, 5] ∧
  [Status.ok, .invalidState, .lengthOverflow, .unsupportedAlgorithm, .illegalCommand].map statusCode
    = [0, 1, 2, 3, 4]

/-- R33: the layout of STATUS, and that it shows nothing but `ST`, `ALG`, `BUFLEN` and `DLEN`. -/
def Obligations.StatusPortHasTheStatedLayout : Prop :=
  (∀ s : State,
    (statusPort s).extractLsb' 0 2 = lifecycleCode s.st ∧
    (statusPort s).extractLsb' 2 3 = algId s.alg ∧
    (statusPort s).extractLsb' 5 3 = 0 ∧
    (statusPort s).extractLsb' 8 8 = s.buflen ∧
    (statusPort s).extractLsb' 16 7 = s.dlen ∧
    (statusPort s).extractLsb' 23 9 = 0) ∧
  (∀ s t : State, s.st = t.st → s.alg = t.alg → s.buflen = t.buflen → s.dlen = t.dlen →
    statusPort s = statusPort t)

/-! ### NEW (45_context_commands.md section 1) -/

/-- NEW with a supported algorithm completes in every state with a Fresh context of that algorithm,
and changes nothing but the fields named (R191 to R193): `BUF`, `DIGEST` and the host's inputs are
as they were (that stale bytes are kept is the model's choice, log entry 7). -/
def Obligations.NewCreatesAFreshContext : Prop :=
  ∀ (a : Alg) (s : State), s.din = [] →
    exec (newInstr a) s = .next { s with
      st := .fresh, alg := a, h := initialHash a, buflen := 0, len := 0, dlen := 0,
      din := [], resp := some ⟨.ok, []⟩ }

/-- NEW loads the IV of its algorithm, with the registers the algorithm does not use 0: the values
of R112, R132, R143, R142, R163 and R162. -/
def Obligations.NewLoadsTheInitialVector : Prop :=
  ∀ (a : Alg) (s : State), s.din = [] →
    ∃ t, exec (newInstr a) s = .next t ∧ t.h.toList.map BitVec.toNat =
      match a with
      | .md5 => [0x67452301, 0xefcdab89, 0x98badcfe, 0x10325476, 0, 0, 0, 0]
      | .sha1 => [0x67452301, 0xefcdab89, 0x98badcfe, 0x10325476, 0xc3d2e1f0, 0, 0, 0]
      | .sha224 =>
        [0xc1059ed8, 0x367cd507, 0x3070dd17, 0xf70e5939, 0xffc00b31, 0x68581511, 0x64f98fa7,
         0xbefa4fa4]
      | .sha256 =>
        [0x6a09e667, 0xbb67ae85, 0x3c6ef372, 0xa54ff53a, 0x510e527f, 0x9b05688c, 0x1f83d9ab,
         0x5be0cd19]
      | .sha384 =>
        [0xcbbb9d5dc1059ed8, 0x629a292a367cd507, 0x9159015a3070dd17, 0x152fecd8f70e5939,
         0x67332667ffc00b31, 0x8eb44a8768581511, 0xdb0c2e0d64f98fa7, 0x47b5481dbefa4fa4]
      | .sha512 =>
        [0x6a09e667f3bcc908, 0xbb67ae8584caa73b, 0x3c6ef372fe94f82b, 0xa54ff53a5f1d36f1,
         0x510e527fade682d1, 0x9b05688c2b3e6c1f, 0x1f83d9abfb41bd6b, 0x5be0cd19137e2179]

/-- R194: NEW with an id 6 to 15 raises UnsupportedAlgorithm in every state and writes no state;
each of the ten ids decodes to such a command. -/
def Obligations.UnsupportedIdsRaiseUnsupportedAlgorithm : Prop :=
  (∀ i ∈ unsupportedInstrs, ∀ s : State, s.din = [] →
    exec i s = .next { s with din := [], resp := some ⟨.unsupportedAlgorithm, []⟩ }) ∧
  (∀ arg : BitVec 4, 6 ≤ arg.toNat →
    ∃ i ∈ unsupportedInstrs, decode (commandWord 0x1 arg 0) = .ok i)

/-- The old context does not matter to NEW: from any two states with the same inputs the host sees
the same afterwards (R193, R265). -/
def Obligations.NewForgetsTheOldContext : Prop :=
  ∀ (a : Alg) (s t s' t' : State), s.host = t.host →
    exec (newInstr a) s = .next s' → exec (newInstr a) t = .next t' → LookAlike s' t'

/-! ### UPDATE (45_context_commands.md section 2, 40_blockbuffer.md) -/

/-- UPDATE in an open context, when the length fits, completes: the tail joined with the payload
goes block by block through the compression function, the rest becomes the tail, `LEN` counts the
bits, `ST` is Active, and nothing else changes (R195, R101, R104). -/
def Obligations.UpdateFeedsTheBlocks : Prop :=
  ∀ (n : Nat) (s : State), s.isOpen = true → s.din.length = n →
    s.len.toNat + 8 * n ≤ maxBits s.alg → s.buflen.toNat < blockBytes s.alg → Memory.wf s.buf →
    ∃ t, exec (.update n) s = .next t ∧
      t.st = .active ∧ t.alg = s.alg ∧
      t.h = absorb s.alg s.h (s.tail ++ s.din) ∧
      t.buflen.toNat = (s.buflen.toNat + n) % blockBytes s.alg ∧
      t.tail = remainder (blockBytes s.alg) (s.tail ++ s.din) ∧
      t.len.toNat = s.len.toNat + 8 * n ∧
      t.digest = s.digest ∧ t.dlen = s.dlen ∧ t.host = s.host ∧ t.din = [] ∧
      t.resp = some ⟨.ok, []⟩

/-- Where UPDATE stores (R101): byte `k` of the payload goes to `feedAddress` `k`, and stands there
afterwards unless a later byte of the same payload came round to it; every other byte of `BUF`
reads as before (that stale bytes are kept is the model's choice, log entry 7). -/
def Obligations.UpdateStoresOnlyThePayload : Prop :=
  ∀ (n : Nat) (s t : State), s.buflen.toNat < blockBytes s.alg → Memory.wf s.buf →
    exec (.update n) s = .next t →
    (∀ x, (∀ k, k < n → x ≠ feedAddress s.alg s.buflen.toNat k) → t.bufByte x = s.bufByte x) ∧
    (t.resp = some ⟨.ok, []⟩ → ∀ k, k < n → n ≤ k + blockBytes s.alg →
      t.bufByte (feedAddress s.alg s.buflen.toNat k) = s.din.getD k 0)

/-- UPDATE past the limit of an open context raises LengthOverflow before any byte is fed, and
writes no state (R196). -/
def Obligations.UpdatePastTheLimitWritesNothing : Prop :=
  ∀ (n : Nat) (s : State), s.isOpen = true → s.din.length = n →
    maxBits s.alg < s.len.toNat + 8 * n →
    exec (.update n) s = .next { s with din := [], resp := some ⟨.lengthOverflow, []⟩ }

/-- R198: the zero-length UPDATE leaves `H`, `BUF`, `BUFLEN`, `LEN` untouched and makes the context
Active; and every command behaves the same in Fresh and in Active: it stops in both alike or answers
in both, with the same response and the same state but for `ST`, and with the same `ST` too when the
response is OK. -/
def Obligations.UpdateOfNothingOnlyActivates : Prop :=
  decode 0x20000000 = .ok (.update 0) ∧
  (∀ s : State, s.isOpen = true → s.din = [] → s.len.toNat ≤ maxBits s.alg →
    exec (.update 0) s = .next { s with st := .active, din := [], resp := some ⟨.ok, []⟩ }) ∧
  (∀ (i : Instr) (s : State),
    (∀ t, exec i { s with st := .fresh } = .next t →
      ∃ u, exec i { s with st := .active } = .next u ∧ u.resp = t.resp ∧
        { u with st := .fresh } = { t with st := .fresh } ∧
        ((∃ out, t.resp = some ⟨.ok, out⟩) → u.st = t.st)) ∧
    (∀ u, exec i { s with st := .active } = .next u →
      ∃ t, exec i { s with st := .fresh } = .next t) ∧
    (∀ f, exec i { s with st := .fresh } = .fault f ↔ exec i { s with st := .active } = .fault f) ∧
    (∀ r, exec i { s with st := .fresh } = .refused r ↔
      exec i { s with st := .active } = .refused r))

/-- R199: two ways of cutting the same bytes into UPDATEs leave the same state, empty chunks
included, and the context Active. -/
def Obligations.ChunkingDoesNotMatter : Prop :=
  ∀ (s : State) (xs ys : List (List Byte)), s.isOpen = true →
    s.buflen.toNat < blockBytes s.alg → xs ≠ [] → ys ≠ [] → xs.flatten = ys.flatten →
    (∀ x ∈ xs, x.length < 2 ^ Config.cntw) → (∀ y ∈ ys, y.length < 2 ^ Config.cntw) →
    s.len.toNat + 8 * xs.flatten.length ≤ maxBits s.alg →
    ∃ t, runCommands (xs.map updateCommand) s = .next t ∧
      runCommands (ys.map updateCommand) s = .next t ∧ t.st = .active

/-- R37 (g): NEW begins a context that holds the empty message, and an accepted UPDATE makes the
context hold the message with the payload appended. -/
def Obligations.ContextHoldsTheAcceptedMessage : Prop :=
  (∀ (a : Alg) (s t : State), exec (newInstr a) s = .next t → Holds t []) ∧
  (∀ (n : Nat) (s t : State) (msg : List Byte), Holds s msg → Memory.wf s.buf →
    exec (.update n) s = .next t → t.resp = some ⟨.ok, []⟩ → Holds t (msg ++ s.din))

/-! ### Padding (44_padding.md) and byte order (00_scope.md R13, 20_memory.md) -/

/-- R182: `z` is the least number of zero bytes that brings the buffer to `B − Lf`, with its values
for the two block sizes. -/
def Obligations.PaddingZerosAreTheLeast : Prop :=
  ∀ (a : Alg) (n : Nat), n < blockBytes a →
    (n + 1 + padZeros a n) % blockBytes a = blockBytes a - lengthFieldBytes a ∧
    (∀ z, (n + 1 + z) % blockBytes a = blockBytes a - lengthFieldBytes a → padZeros a n ≤ z) ∧
    padZeros a n ≤ blockBytes a - 1 ∧
    (blockBytes a = 64 → padZeros a n = if n ≤ 55 then 55 - n else 119 - n) ∧
    (blockBytes a = 128 → padZeros a n = if n ≤ 111 then 111 - n else 239 - n)

/-- R184: the tail and its padding make one block or two, and what stands in the two. -/
def Obligations.PaddingMakesOneOrTwoBlocks : Prop :=
  ∀ (a : Alg) (tail : List Byte) (len : Nat), tail.length < blockBytes a →
    (tail.length ≤ blockBytes a - lengthFieldBytes a - 1 →
      (tail ++ padString a tail.length len).length = blockBytes a) ∧
    (blockBytes a - lengthFieldBytes a ≤ tail.length →
      (tail ++ padString a tail.length len).length = 2 * blockBytes a ∧
      (tail ++ padString a tail.length len).take (blockBytes a) =
        tail ++ 0x80#8 :: List.replicate (blockBytes a - tail.length - 1) 0x00#8 ∧
      (tail ++ padString a tail.length len).drop (blockBytes a) =
        List.replicate (blockBytes a - lengthFieldBytes a) 0x00#8 ++ lengthField a len)

/-- The padding FSM, phase by phase, computes what the feed of the padding string computes (R185). -/
def Obligations.PaddingFsmFeedsThePaddingString : Prop :=
  ∀ s : State, s.buflen.toNat < blockBytes s.alg → padFsm s = padAndCompress s

/-- R52: the length field has 8 bytes, 16 for SHA384 and SHA512, and carries the length, little-endian for MD5 and
big-endian for the SHA algorithms. -/
def Obligations.LengthFieldCarriesTheLength : Prop :=
  ∀ (a : Alg) (n : Nat), n ≤ maxBits a →
    (lengthField a n).length = (if a = .sha384 ∨ a = .sha512 then 16 else 8) ∧
    (if a = .md5 then le (lengthField a n) = n else be (lengthField a n) = n)

/-- R13: what `le` and `be` sum, that `to_le` and `to_be` are their inverses, and that `be32`,
`be64`, `le32` are these at 4, 8 and 4 bytes. -/
def Obligations.ByteConversionsAreInverse : Prop :=
  (∀ s : List Byte,
    le s = ∑ i ∈ Finset.range s.length, (s.getD i 0).toNat * 256 ^ i ∧
    be s = ∑ i ∈ Finset.range s.length, (s.getD i 0).toNat * 256 ^ (s.length - 1 - i)) ∧
  (∀ v k : Nat, v < 256 ^ k → le (toLe v k) = v ∧ be (toBe v k) = v) ∧
  (∀ s : List Byte, toLe (le s) s.length = s ∧ toBe (be s) s.length = s) ∧
  (∀ s : List Byte,
    (s.length = 4 → (le32 s).toNat = le s ∧ (be32 s).toNat = be s) ∧
    (s.length = 8 → (be64 s).toNat = be s))

/-- R12: the operators as arithmetic on the word's value. -/
def Obligations.WordOperatorsAreModular : Prop :=
  ∀ (w n : Nat) (a b : BitVec w), 0 < n → n < w →
    (a + b).toNat = (a.toNat + b.toNat) % 2 ^ w ∧
    (a &&& b).toNat = a.toNat &&& b.toNat ∧
    (a ||| b).toNat = a.toNat ||| b.toNat ∧
    (a ^^^ b).toNat = a.toNat ^^^ b.toNat ∧
    (~~~a).toNat = 2 ^ w - 1 - a.toNat ∧
    (shr a n).toNat = a.toNat / 2 ^ n ∧
    (rotl a n).toNat = (a.toNat * 2 ^ n % 2 ^ w) ||| (a.toNat / 2 ^ (w - n)) ∧
    rotr a n = rotl a (w - n)

/-! ### The compression functions (41, 42, 43) -/

/-- R131, R133: the SHA-1 message schedule. -/
def Obligations.Sha1ScheduleFollowsTheRecurrence : Prop :=
  ∀ block : List Byte,
    (sha1Schedule block).length = 80 ∧
    (∀ j, j < 16 → (sha1Schedule block).getD j 0 = be32 (slice block (4 * j) 4)) ∧
    (∀ t, 16 ≤ t → t < 80 → (sha1Schedule block).getD t 0 =
      rotl ((sha1Schedule block).getD (t - 3) 0 ^^^ (sha1Schedule block).getD (t - 8) 0 ^^^
        (sha1Schedule block).getD (t - 14) 0 ^^^ (sha1Schedule block).getD (t - 16) 0) 1)

/-- R141, R145: the SHA-224/256 message schedule. -/
def Obligations.Sha256ScheduleFollowsTheRecurrence : Prop :=
  ∀ block : List Byte,
    (sha256Schedule block).length = 64 ∧
    (∀ j, j < 16 → (sha256Schedule block).getD j 0 = be32 (slice block (4 * j) 4)) ∧
    (∀ t, 16 ≤ t → t < 64 → (sha256Schedule block).getD t 0 =
      sha256SSIG1 ((sha256Schedule block).getD (t - 2) 0) + (sha256Schedule block).getD (t - 7) 0 +
        sha256SSIG0 ((sha256Schedule block).getD (t - 15) 0) +
        (sha256Schedule block).getD (t - 16) 0)

/-- R161, R165: the SHA-384/512 message schedule. -/
def Obligations.Sha512ScheduleFollowsTheRecurrence : Prop :=
  ∀ block : List Byte,
    (sha512Schedule block).length = 80 ∧
    (∀ j, j < 16 → (sha512Schedule block).getD j 0 = be64 (slice block (8 * j) 8)) ∧
    (∀ t, 16 ≤ t → t < 80 → (sha512Schedule block).getD t 0 =
      sha512SSIG1 ((sha512Schedule block).getD (t - 2) 0) + (sha512Schedule block).getD (t - 7) 0 +
        sha512SSIG0 ((sha512Schedule block).getD (t - 15) 0) +
        (sha512Schedule block).getD (t - 16) 0)

/-- R114, R115: the message-word index and the rotation amount of each of the 64 MD5 steps. -/
def Obligations.Md5IndexAndShiftTables : Prop :=
  (List.range 64).map md5Index =
    [0, 1, 2, 3, 4, 5, 6, 7, 8, 9, 10, 11, 12, 13, 14, 15] ++
    [1, 6, 11, 0, 5, 10, 15, 4, 9, 14, 3, 8, 13, 2, 7, 12] ++
    [5, 8, 11, 14, 1, 4, 7, 10, 13, 0, 3, 6, 9, 12, 15, 2] ++
    [0, 7, 14, 5, 12, 3, 10, 1, 8, 15, 6, 13, 4, 11, 2, 9] ∧
  (List.range 64).map md5Shift =
    (List.replicate 4 [7, 12, 17, 22]).flatten ++ (List.replicate 4 [5, 9, 14, 20]).flatten ++
    (List.replicate 4 [4, 11, 16, 23]).flatten ++ (List.replicate 4 [6, 10, 15, 21]).flatten

/-- R146, R166: the SHA-2 round constants are the first 32 and 64 bits of the fractional parts of
the cube roots of the primes, in order: with `m` the whole part, the constant is the greatest `k`
with `(m + k / 2^w)³ ≤ p`. The upper halves of the first 64 of the 64-bit ones are the 32-bit ones. -/
def Obligations.RoundConstantsAreCubeRootBits : Prop :=
  let primes := (List.range 410).filter fun n => 2 ≤ n ∧ ∀ d < n, 2 ≤ d → n % d ≠ 0
  primes.length = 80 ∧ sha256K.length = 64 ∧ sha512K.length = 80 ∧
  (∀ t < 64, ∃ m < 8,
    (m * 2 ^ 32 + (sha256K.getD t 0).toNat) ^ 3 ≤ primes.getD t 0 * 2 ^ 96 ∧
    primes.getD t 0 * 2 ^ 96 < (m * 2 ^ 32 + (sha256K.getD t 0).toNat + 1) ^ 3) ∧
  (∀ t < 80, ∃ m < 8,
    (m * 2 ^ 64 + (sha512K.getD t 0).toNat) ^ 3 ≤ primes.getD t 0 * 2 ^ 192 ∧
    primes.getD t 0 * 2 ^ 192 < (m * 2 ^ 64 + (sha512K.getD t 0).toNat + 1) ^ 3) ∧
  (∀ t < 64, (sha256K.getD t 0).toNat = (sha512K.getD t 0).toNat / 2 ^ 32)

/-- R142, R143, R162, R163: the SHA-2 initial vectors as bits of the fractional parts of the square
roots of the first sixteen primes. -/
def Obligations.Sha2InitialVectorsAreSquareRootBits : Prop :=
  let primes := (List.range 54).filter fun n => 2 ≤ n ∧ ∀ d < n, 2 ≤ d → n % d ≠ 0
  let iv64 := (initialHash .sha512).toList ++ (initialHash .sha384).toList
  primes.length = 16 ∧
  (∀ t < 16, ∃ m < 8,
    (m * 2 ^ 64 + (iv64.getD t 0).toNat) ^ 2 ≤ primes.getD t 0 * 2 ^ 128 ∧
    primes.getD t 0 * 2 ^ 128 < (m * 2 ^ 64 + (iv64.getD t 0).toNat + 1) ^ 2) ∧
  (∀ t < 8,
    ((initialHash .sha256).toList.getD t 0).toNat =
      ((initialHash .sha512).toList.getD t 0).toNat / 2 ^ 32 ∧
    ((initialHash .sha224).toList.getD t 0).toNat =
      ((initialHash .sha384).toList.getD t 0).toNat % 2 ^ 32)

/-- The worked examples of R121 (MD5, the padded empty message), R138 (SHA-1), R150 (SHA-224 and
SHA-256) and R170 (SHA-384 and SHA-512) on the padded "abc": working words on the way, and results. -/
def Obligations.WorkedExamplesOfTheCompressionsComeOut : Prop :=
  let empty : List Byte := 0x80 :: List.replicate 63 0
  let abc (n : Nat) : List Byte := [0x61, 0x62, 0x63, 0x80] ++ List.replicate n 0 ++ [0x18]
  md5Rounds (md5Message empty) md5IV 1 = ⟨0x10325476, 0xa5202774, 0xefcdab89, 0x98badcfe⟩ ∧
  md5Rounds (md5Message empty) md5IV 33 = ⟨0xae7813db, 0xdf63eaa1, 0xa2205f1f, 0x1c31c384⟩ ∧
  md5Compress md5IV empty = ⟨0xd98c1dd4, 0x04b2008f, 0x980980e9, 0x7e42f8ec⟩ ∧
  sha1Rounds (sha1Schedule (abc 59)) sha1IV 41 =
    ⟨0xfc87dedf, 0x32de1cba, 0x53261901, 0xf718e5cf, 0x03d447f6⟩ ∧
  sha1Compress sha1IV (abc 59) = ⟨0xa9993e36, 0x4706816a, 0xba3e2571, 0x7850c26c, 0x9cd0d89d⟩ ∧
  sha256Rounds (sha256Schedule (abc 59)) sha256IV 3 =
    ⟨0xc8c347a7, 0x5a6ad9ad, 0x5d6aebcd, 0x6a09e667, 0xf92939eb, 0x78ce7989, 0xfa2a4622,
     0x510e527f⟩ ∧
  sha256Compress sha256IV (abc 59) =
    ⟨0xba7816bf, 0x8f01cfea, 0x414140de, 0x5dae2223, 0xb00361a3, 0x96177a9c, 0xb410ff61,
     0xf20015ad⟩ ∧
  sha256Compress sha224IV (abc 59) =
    ⟨0x23097d22, 0x3405d822, 0x8642a477, 0xbda255b3, 0x2aadbce4, 0xbda0b3f7, 0xe36c9da7,
     0xd2da082d⟩ ∧
  sha512Compress sha512IV (abc 123) =
    ⟨0xddaf35a193617aba, 0xcc417349ae204131, 0x12e6fa4e89a97ea2, 0x0a9eeee64b55d39a,
     0x2192992a274fc1a8, 0x36ba3c23a3feebbd, 0x454d4423643ce80e, 0x2a9ac94fa54ca49f⟩ ∧
  sha512Compress sha384IV (abc 123) =
    ⟨0xcb00753f45a35e8b, 0xb5a03d699ac65007, 0x272c32ab0eded163, 0x1a8b605a43ff5bed,
     0x8086072ba1e7cc23, 0x58baeca134c825a7, 0xa303edfdf3b89cd7, 0x0c66918ece57ba15⟩

/-- A compression leaves `H[NH..7]` as they are, and for the 32-bit algorithms writes the hash words
with upper halves 0 (R103, R110, R130, R140, R21). -/
def Obligations.CompressionWritesOnlyItsHashWords : Prop :=
  ∀ (a : Alg) (h : HashRegs) (block : List Byte) (i : Fin Config.nhmax),
    (hashWords a ≤ i.val → (compress a h block)[i] = h[i]) ∧
    (i.val < hashWords a → wordBits a = 32 → (compress a h block)[i].toNat < 2 ^ 32)

/-! ### FINALIZE (45_context_commands.md section 3) -/

/-- FINALIZE in an open context completes: padding folds into `H`, the digest is latched and
answered, `ST` is Finalized, `LEN`, `ALG`, the rest of `DIGEST` and the buffer outside the stored
bytes are as they were (R200, R204, R205, R187; that stale bytes are kept is the model's choice, log
entry 7). -/
def Obligations.FinalizePadsLatchesAndAnswers : Prop :=
  ∀ s : State, s.isOpen = true → s.din = [] → s.buflen.toNat < blockBytes s.alg →
    Memory.wf s.buf →
    ∃ t, exec .finalize s = .next t ∧
      t.st = .finalized ∧ t.alg = s.alg ∧
      t.h = absorb s.alg s.h (s.tail ++ padString s.alg s.buflen.toNat s.len.toNat) ∧
      t.buflen = 0 ∧ t.len = s.len ∧ t.dlen.toNat = digestBytes s.alg ∧
      t.heldDigest = digestOf s.alg t.h ∧ t.resp = some ⟨.ok, digestOf s.alg t.h⟩ ∧
      (∀ i : Fin Config.dmax, digestBytes s.alg ≤ i.val → t.digest[i] = s.digest[i]) ∧
      (∀ x, (∀ k, k < (padString s.alg s.buflen.toNat s.len.toNat).length →
        x ≠ feedAddress s.alg s.buflen.toNat k) → t.bufByte x = s.bufByte x) ∧
      t.host = s.host ∧ t.din = []

/-- A context that holds a message answers FINALIZE with that message's digest, and keeps it for
FORMAT (R200, R204, with R37 (g)). -/
def Obligations.FinalizeAnswersTheMessageDigest : Prop :=
  ∀ (s : State) (msg : List Byte), Holds s msg → Memory.wf s.buf → s.din = [] →
    ∃ t, exec .finalize s = .next t ∧ t.st = .finalized ∧
      t.resp = some ⟨.ok, messageDigest s.alg msg⟩ ∧ t.heldDigest = messageDigest s.alg msg

/-- R203: the serialisation is the hash words in order, each as `w/8` bytes, little-endian for MD5
and big-endian otherwise; the digest is its first `DLEN(alg)` bytes, all of it but for SHA224
and SHA384. -/
def Obligations.SerialisationAndTruncation : Prop :=
  ∀ (a : Alg) (h : HashRegs),
    (serialise a h).length = hashWords a * (wordBits a / 8) ∧
    (∀ i : Fin Config.nhmax, i.val < hashWords a →
      (if a = .md5 then le (slice (serialise a h) (i.val * (wordBits a / 8)) (wordBits a / 8))
        else be (slice (serialise a h) (i.val * (wordBits a / 8)) (wordBits a / 8)))
        = h[i].toNat % 2 ^ wordBits a) ∧
    digestOf a h = (serialise a h).take (digestBytes a) ∧
    (digestOf a h).length = digestBytes a ∧
    (a ≠ .sha224 → a ≠ .sha384 → digestOf a h = serialise a h)

/-- The SHA224 digest is the first 28 bytes of a SHA256 computation from SHA224's own IV, and the
SHA384 digest the first 48 bytes of a SHA512 computation from SHA384's (R203). -/
def Obligations.TruncatedDigestsAreOfTheFullComputation : Prop :=
  ∀ msg : List Byte,
    messageDigest .sha224 msg =
      (serialise .sha256 (absorb .sha256 (initialHash .sha224) (paddedMessage .sha256 msg))).take 28 ∧
    messageDigest .sha384 msg =
      (serialise .sha512 (absorb .sha512 (initialHash .sha384) (paddedMessage .sha512 msg))).take 48

/-! ### FORMAT (46_formatter.md) -/

/-- FORMAT completes in Finalized, with the held digest rendered in the mode, and changes no state:
every register, flag, hash word and byte of `BUF` and `DIGEST` is as it was (R220, R221, R225). -/
def Obligations.FormatAnswersTheHeldDigest : Prop :=
  ∀ s : State, s.st = .finalized → s.din = [] →
    exec .formatRaw s = .next { s with din := [], resp := some ⟨.ok, s.heldDigest⟩ } ∧
    exec .formatHex s = .next { s with din := [], resp := some ⟨.ok, hexBytes s.heldDigest⟩ }

/-- R222: two lowercase hex characters per byte, the high nibble first, nothing between or after. -/
def Obligations.HexRenderingOfEachByte : Prop :=
  ∀ d : List Byte,
    (hexBytes d).length = 2 * d.length ∧
    ∀ i, i < d.length →
      (hexBytes d).getD (2 * i) 0 = hexDigit (BitVec.ofNat 4 ((d.getD i 0).toNat / 16)) ∧
      (hexBytes d).getD (2 * i + 1) 0 = hexDigit (BitVec.ofNat 4 ((d.getD i 0).toNat % 16))

/-- R223: the sixteen hex digits. -/
def Obligations.HexDigitsAreLowercaseAscii : Prop :=
  (List.range 16).map (fun v => hexDigit (BitVec.ofNat 4 v)) =
    [0x30, 0x31, 0x32, 0x33, 0x34, 0x35, 0x36, 0x37, 0x38, 0x39] ++
    [0x61, 0x62, 0x63, 0x64, 0x65, 0x66]

/-- R226: hex to raw to hex is the identity, and raw to hex to raw. -/
def Obligations.HexRoundTrips : Prop :=
  (∀ d : List Byte, unhex (hexBytes d) = some d) ∧
  (∀ s d : List Byte, unhex s = some d → hexBytes d = s)

/-! ### Rules over all commands (10_state.md, 60_exceptions.md) -/

/-- R240, with R231 to R234: the status of every command is OK or the first cause that applies. The
buffer is below its block size where a command would use it. -/
def Obligations.TheFirstApplicableErrorIsReported : Prop :=
  ∀ (s : State) (c : Command) (rest : List HostInput),
    s.host = .command c :: rest → c.payload.length = paylen c.word →
    s.buflen.toNat < blockBytes s.alg →
    ∃ t r, step s = .next t ∧ t.resp = some r ∧ r.status = firstStatus c.word s

/-- R236: a command that raises writes no state of R20, answers its code with nothing on DOUT, and
consumes its payload. -/
def Obligations.ErrorsWriteNothing : Prop :=
  (∀ (i : Instr) (s t : State) (r : Response), exec i s = .next t → t.resp = some r →
    r.status ≠ .ok → t = { s with din := [], resp := some ⟨r.status, []⟩ }) ∧
  (∀ (s t : State) (c : Command) (rest : List HostInput) (r : Response),
    s.host = .command c :: rest → step s = .next t → t.resp = some r → r.status ≠ .ok →
    t = { s with host := rest, din := [], resp := some ⟨r.status, []⟩ })

/-- R26: every transition of `ST`. NEW with a supported algorithm always answers OK. -/
def Obligations.LifecycleTransitions : Prop :=
  ∀ (i : Instr) (s t : State), exec i s = .next t →
    ∃ r, t.resp = some r ∧
      ((∃ a, i = newInstr a) → r.status = .ok) ∧
      (r.status ≠ .ok → t.st = s.st) ∧
      (r.status = .ok →
        ((∃ a, i = newInstr a) ∧ t.st = .fresh) ∨
        ((∃ n, i = .update n) ∧ (s.st = .fresh ∨ s.st = .active) ∧ t.st = .active) ∨
        (i = .finalize ∧ (s.st = .fresh ∨ s.st = .active) ∧ t.st = .finalized) ∨
        ((∃ m, i = formatInstr m) ∧ s.st = .finalized ∧ t.st = .finalized))

/-- Which commands write which piece of state (the table of R20), and what no command touches. -/
def Obligations.StateIsWrittenOnlyByItsCommands : Prop :=
  ∀ (i : Instr) (s t : State), exec i s = .next t →
    (t.alg ≠ s.alg → ∃ a, i = newInstr a) ∧
    (t.st ≠ s.st → (∃ a, i = newInstr a) ∨ (∃ n, i = .update n) ∨ i = .finalize) ∧
    (t.h ≠ s.h → (∃ a, i = newInstr a) ∨ (∃ n, i = .update n) ∨ i = .finalize) ∧
    (t.buf ≠ s.buf → (∃ n, i = .update n) ∨ i = .finalize) ∧
    (t.buflen ≠ s.buflen → (∃ a, i = newInstr a) ∨ (∃ n, i = .update n) ∨ i = .finalize) ∧
    (t.len ≠ s.len → (∃ a, i = newInstr a) ∨ (∃ n, i = .update n)) ∧
    (t.digest ≠ s.digest → i = .finalize) ∧
    (t.dlen ≠ s.dlen → (∃ a, i = newInstr a) ∨ i = .finalize) ∧
    t.host = s.host ∧ t.din = []

/-- R82: every command answers one response, and what stands on DOUT. -/
def Obligations.ResponsesHaveTheStatedForm : Prop :=
  ∀ (i : Instr) (s t : State), Inv { s with din := [] } → exec i s = .next t →
    ∃ r, t.resp = some r ∧ (statusCode r.status).toNat ≤ 4 ∧
      (r.status ≠ .ok → r.out = []) ∧
      ((∃ a, i = newInstr a) → r.out = []) ∧
      ((∃ n, i = .update n) → r.out = []) ∧
      (i = .finalize → r.status = .ok →
        r.out = t.heldDigest ∧ r.out.length = t.dlen.toNat ∧ t.dlen.toNat = digestBytes s.alg) ∧
      (i = .formatRaw → r.status = .ok → r.out.length = s.dlen.toNat) ∧
      (i = .formatHex → r.status = .ok → r.out.length = 2 * s.dlen.toNat)

/-- The invariant of a command boundary holds at reset (R37; `H` and `BUF` after reset are the
model's choice, log entries 1 and 2). -/
def Obligations.InvariantHoldsAtReset : Prop := Inv State.reset

/-- Every step keeps the invariant of a command boundary (R37; after a RESET it rests on the values
of log entries 1 and 2). -/
def Obligations.StepKeepsTheInvariant : Prop :=
  ∀ s t : State, Inv s → step s = .next t → Inv t

/-- From a state with the invariant a step never faults, and a command with exactly its payload is
always answered (R15: the engine's step is total). -/
def Obligations.CommandsAreAlwaysAnswered : Prop :=
  ∀ s : State, Inv s →
    (∀ f, step s ≠ .fault f) ∧
    (∀ c rest, s.host = .command c :: rest → c.payload.length = paylen c.word →
      ∃ t r, step s = .next t ∧ t.resp = some r ∧ t.host = rest)

/-- States that look alike to the host stay alike: no response and no STATUS depends on a stale
byte, on an unused hash word, or on what `H`, `BUF` and `DIGEST` hold after reset (U3; R21, R28,
R31, R38). -/
def Obligations.StaleContentsNeverShow : Prop :=
  ∀ s t s' : State, Memory.wf s.buf → Memory.wf t.buf → LookAlike s t → step s = .next s' →
    ∃ t', step t = .next t' ∧ LookAlike s' t' ∧ statusPort s' = statusPort t'

/-! ### Whole computations -/

/-- From every state, NEW, any cutting of a message into UPDATEs, and FINALIZE answer the digest of
the message, and FORMAT hex then answers its hex (R193, R199, R200, R222). -/
def Obligations.AnyChunkingGivesTheMessageDigest : Prop :=
  ∀ (a : Alg) (s : State) (xs : List (List Byte)), Memory.wf s.buf →
    (∀ x ∈ xs, x.length < 2 ^ Config.cntw) → 8 * xs.flatten.length ≤ maxBits a →
    (∃ t, runCommands ([commandOf (newInstr a)] ++ xs.map updateCommand ++ [commandOf .finalize]) s
        = .next t ∧ t.resp = some ⟨.ok, messageDigest a xs.flatten⟩) ∧
    (∃ u, runCommands ([commandOf (newInstr a)] ++ xs.map updateCommand ++
        [commandOf .finalize, commandOf .formatHex]) s = .next u ∧
      u.resp = some ⟨.ok, hexBytes (messageDigest a xs.flatten)⟩)

/-- The one-shot DIGEST, from every state, answers the message's digest in the mode asked for
(R206, R85 (a); how a long UPDATE is cut is the model's choice, log entry 13). -/
def Obligations.OneShotDigestAnswersTheMessageDigest : Prop :=
  ∀ (a : Alg) (m : Mode) (data : List Byte) (s : State), Memory.wf s.buf →
    8 * data.length ≤ maxBits a →
    ∃ t, digestOnce (newInstr a) m data s = .next t ∧
      t.resp = some ⟨.ok, render m (messageDigest a data)⟩

/-- A long UPDATE is expanded into UPDATE commands over consecutive slices, each a legal command
with its payload (R85 (b); one empty UPDATE for no bytes is the model's choice, log entry 13). -/
def Obligations.LongUpdateIsCutIntoLegalUpdates : Prop :=
  ∀ data : List Byte,
    ((updateCommands data).map Command.payload).flatten = data ∧
    updateCommands data ≠ [] ∧
    ∀ c ∈ updateCommands data, c.framed = true ∧ c.payload.length ≤ 2 ^ 24 - 1 ∧
      decode c.word = .ok (.update c.payload.length)

/-- R84: an algorithm name is case-sensitive, and a name of no algorithm is encoded as id 15. -/
def Obligations.UnknownNamesAreEncodedAsIdFifteen : Prop :=
  (∀ name : String, name ∉ ["MD5", "SHA1", "SHA224", "SHA256", "SHA384", "SHA512"] →
    encode (assembleNew name) = 0x1f000000) ∧
  encode (assembleNew "md5") = 0x1f000000 ∧
  ["MD5", "SHA1", "SHA224", "SHA256", "SHA384", "SHA512"].map (fun n => encode (assembleNew n)) =
    [0x10000000, 0x11000000, 0x12000000, 0x13000000, 0x14000000, 0x15000000]

/-- The values the source itself prints (95_test_vectors.md S1 to S4): MD5 of the empty message, and
the first four bytes of SHA1, SHA256 and MD5 of "data". -/
def Obligations.DigestsPrintedInTheSource : Prop :=
  messageDigest .md5 [] =
    [0xd4, 0x1d, 0x8c, 0xd9, 0x8f, 0x00, 0xb2, 0x04, 0xe9, 0x80, 0x09, 0x98, 0xec, 0xf8, 0x42,
     0x7e] ∧
  (messageDigest .sha1 [0x64, 0x61, 0x74, 0x61]).take 4 = [0xa1, 0x7c, 0x9a, 0xaa] ∧
  (messageDigest .sha256 [0x64, 0x61, 0x74, 0x61]).take 4 = [0x3a, 0x6e, 0xb0, 0x79] ∧
  (messageDigest .md5 [0x64, 0x61, 0x74, 0x61]).take 4 = [0x8d, 0x77, 0x7f, 0x38]

/-- What a run shows (R270): the run that observes is the run; it shows one response for each
command and STATUS at every command boundary, from the start boundary to the one after the last
command; and boundary `k` is the state that the first `k` commands lead to. -/
def Obligations.RunShowsEveryBoundary : Prop :=
  ∀ (cs : List Command) (s u : State),
    (runCommands cs s = .next u ↔ ∃ seen, observe cs s = .next (u, seen)) ∧
    (∀ seen, observe cs s = .next (u, seen) →
      seen.responses.length = cs.length ∧ seen.status.length = cs.length + 1 ∧
      ∀ k, k ≤ cs.length → ∃ t, runCommands (cs.take k) s = .next t ∧
        seen.status[k]? = some (statusPort t) ∧
        (0 < k → t.resp = seen.responses[k - 1]?))

/-- The one-shot DIGEST stops at the first response that is not OK and takes it as its result
(R206): at NEW for an algorithm the engine does not have, at an UPDATE for data past the length
limit. -/
def Obligations.OneShotDigestStopsAtTheFirstError : Prop :=
  (∀ i ∈ unsupportedInstrs, ∀ (m : Mode) (data : List Byte) (s : State),
    digestOnce i m data s =
      .next { s with din := [], resp := some ⟨.unsupportedAlgorithm, []⟩ }) ∧
  (∀ (a : Alg) (m : Mode) (data : List Byte) (s : State),
    maxBits a < 8 * data.length →
    ∃ t, digestOnce (newInstr a) m data s = .next t ∧ t.resp = some ⟨.lengthOverflow, []⟩ ∧
      (t.st = .fresh ∨ t.st = .active))
end

