-- ==== Sys2Proof/Laws/State.lean ====
section
/-! SUPPORT. One lemma per field per update of the state, so that no later proof unfolds a record
update. -/

namespace Sys2Proof.Machine

section
variable (s : State) (p : List Byte) (r : List HostInput)

@[simp] theorem present_st : (s.present p r).st = s.st := rfl
@[simp] theorem present_alg : (s.present p r).alg = s.alg := rfl
@[simp] theorem present_h : (s.present p r).h = s.h := rfl
@[simp] theorem present_buf : (s.present p r).buf = s.buf := rfl
@[simp] theorem present_buflen : (s.present p r).buflen = s.buflen := rfl
@[simp] theorem present_len : (s.present p r).len = s.len := rfl
@[simp] theorem present_digest : (s.present p r).digest = s.digest := rfl
@[simp] theorem present_dlen : (s.present p r).dlen = s.dlen := rfl
@[simp] theorem present_host : (s.present p r).host = r := rfl
@[simp] theorem present_din : (s.present p r).din = p := rfl
@[simp] theorem present_resp : (s.present p r).resp = s.resp := rfl

end

section
variable (s : State) (r : Response)

@[simp] theorem answer_st : (s.answer r).st = s.st := rfl
@[simp] theorem answer_alg : (s.answer r).alg = s.alg := rfl
@[simp] theorem answer_h : (s.answer r).h = s.h := rfl
@[simp] theorem answer_buf : (s.answer r).buf = s.buf := rfl
@[simp] theorem answer_buflen : (s.answer r).buflen = s.buflen := rfl
@[simp] theorem answer_len : (s.answer r).len = s.len := rfl
@[simp] theorem answer_digest : (s.answer r).digest = s.digest := rfl
@[simp] theorem answer_dlen : (s.answer r).dlen = s.dlen := rfl
@[simp] theorem answer_host : (s.answer r).host = s.host := rfl
@[simp] theorem answer_din : (s.answer r).din = [] := rfl
@[simp] theorem answer_resp : (s.answer r).resp = some r := rfl

end

section
variable (s : State) (m : Memory)

@[simp] theorem keepByte_st : (s.keepByte m).st = s.st := rfl
@[simp] theorem keepByte_alg : (s.keepByte m).alg = s.alg := rfl
@[simp] theorem keepByte_h : (s.keepByte m).h = s.h := rfl
@[simp] theorem keepByte_buf : (s.keepByte m).buf = m := rfl
@[simp] theorem keepByte_buflen : (s.keepByte m).buflen = s.buflen + 1 := rfl
@[simp] theorem keepByte_len : (s.keepByte m).len = s.len := rfl
@[simp] theorem keepByte_digest : (s.keepByte m).digest = s.digest := rfl
@[simp] theorem keepByte_dlen : (s.keepByte m).dlen = s.dlen := rfl
@[simp] theorem keepByte_host : (s.keepByte m).host = s.host := rfl
@[simp] theorem keepByte_din : (s.keepByte m).din = s.din := rfl
@[simp] theorem keepByte_resp : (s.keepByte m).resp = s.resp := rfl

end

section
variable (s : State) (m : Memory) (d : List Byte)

@[simp] theorem flushBlock_st : (s.flushBlock m d).st = s.st := rfl
@[simp] theorem flushBlock_alg : (s.flushBlock m d).alg = s.alg := rfl
@[simp] theorem flushBlock_h : (s.flushBlock m d).h = compress s.alg s.h d := rfl
@[simp] theorem flushBlock_buf : (s.flushBlock m d).buf = m := rfl
@[simp] theorem flushBlock_buflen : (s.flushBlock m d).buflen = 0 := rfl
@[simp] theorem flushBlock_len : (s.flushBlock m d).len = s.len := rfl
@[simp] theorem flushBlock_digest : (s.flushBlock m d).digest = s.digest := rfl
@[simp] theorem flushBlock_dlen : (s.flushBlock m d).dlen = s.dlen := rfl
@[simp] theorem flushBlock_host : (s.flushBlock m d).host = s.host := rfl
@[simp] theorem flushBlock_din : (s.flushBlock m d).din = s.din := rfl
@[simp] theorem flushBlock_resp : (s.flushBlock m d).resp = s.resp := rfl

end

section
variable (s : State) (a : Alg)

@[simp] theorem newContext_st : (newContext a s).st = .fresh := rfl
@[simp] theorem newContext_alg : (newContext a s).alg = a := rfl
@[simp] theorem newContext_h : (newContext a s).h = initialHash a := rfl
@[simp] theorem newContext_buf : (newContext a s).buf = s.buf := rfl
@[simp] theorem newContext_buflen : (newContext a s).buflen = 0 := rfl
@[simp] theorem newContext_len : (newContext a s).len = 0 := rfl
@[simp] theorem newContext_digest : (newContext a s).digest = s.digest := rfl
@[simp] theorem newContext_dlen : (newContext a s).dlen = 0 := rfl
@[simp] theorem newContext_host : (newContext a s).host = s.host := rfl
@[simp] theorem newContext_din : (newContext a s).din = s.din := rfl
@[simp] theorem newContext_resp : (newContext a s).resp = s.resp := rfl

end

section
variable (s : State) (n : Nat)

@[simp] theorem countBits_st : (countBits n s).st = .active := rfl
@[simp] theorem countBits_alg : (countBits n s).alg = s.alg := rfl
@[simp] theorem countBits_h : (countBits n s).h = s.h := rfl
@[simp] theorem countBits_buf : (countBits n s).buf = s.buf := rfl
@[simp] theorem countBits_buflen : (countBits n s).buflen = s.buflen := rfl
@[simp] theorem countBits_len : (countBits n s).len = s.len + BitVec.ofNat Config.lenw (8 * n) := rfl
@[simp] theorem countBits_digest : (countBits n s).digest = s.digest := rfl
@[simp] theorem countBits_dlen : (countBits n s).dlen = s.dlen := rfl
@[simp] theorem countBits_host : (countBits n s).host = s.host := rfl
@[simp] theorem countBits_din : (countBits n s).din = s.din := rfl
@[simp] theorem countBits_resp : (countBits n s).resp = s.resp := rfl

end

section
variable (s : State)

@[simp] theorem latchDigest_st : (latchDigest s).st = .finalized := rfl
@[simp] theorem latchDigest_alg : (latchDigest s).alg = s.alg := rfl
@[simp] theorem latchDigest_h : (latchDigest s).h = s.h := rfl
@[simp] theorem latchDigest_buf : (latchDigest s).buf = s.buf := rfl
@[simp] theorem latchDigest_buflen : (latchDigest s).buflen = s.buflen := rfl
@[simp] theorem latchDigest_len : (latchDigest s).len = s.len := rfl
@[simp] theorem latchDigest_digest : (latchDigest s).digest = writeDigest s.digest (digestOf s.alg s.h) := rfl
@[simp] theorem latchDigest_dlen : (latchDigest s).dlen = BitVec.ofNat 7 (digestBytes s.alg) := rfl
@[simp] theorem latchDigest_host : (latchDigest s).host = s.host := rfl
@[simp] theorem latchDigest_din : (latchDigest s).din = s.din := rfl
@[simp] theorem latchDigest_resp : (latchDigest s).resp = s.resp := rfl

end

section
variable (r : List HostInput)

@[simp] theorem takeReset_st : (takeReset r).st = State.reset.st := rfl
@[simp] theorem takeReset_alg : (takeReset r).alg = State.reset.alg := rfl
@[simp] theorem takeReset_h : (takeReset r).h = State.reset.h := rfl
@[simp] theorem takeReset_buf : (takeReset r).buf = State.reset.buf := rfl
@[simp] theorem takeReset_buflen : (takeReset r).buflen = State.reset.buflen := rfl
@[simp] theorem takeReset_len : (takeReset r).len = State.reset.len := rfl
@[simp] theorem takeReset_digest : (takeReset r).digest = State.reset.digest := rfl
@[simp] theorem takeReset_dlen : (takeReset r).dlen = State.reset.dlen := rfl
@[simp] theorem takeReset_host : (takeReset r).host = r := rfl
@[simp] theorem takeReset_din : (takeReset r).din = State.reset.din := rfl
@[simp] theorem takeReset_resp : (takeReset r).resp = State.reset.resp := rfl

end

end Sys2Proof.Machine
end

