-- ==== Sys2Proof/Laws/Memory.lean ====
section
/-! SUPPORT. The laws of the block buffer's bytes: a read after a write, the canonical form, and
equal memories are equal data. -/

namespace Sys2Proof.Machine

@[simp] theorem Memory.read_nil (a : Nat) : Memory.read [] a = Memory.unlisted := rfl

theorem Memory.read_cons (c : Host.Cell) (m : Memory) (a : Nat) :
    Memory.read (c :: m) a = if c.1 = a then c.2 else Memory.read m a := rfl

/-- An address below every listed one reads as unlisted. -/
theorem Memory.read_of_lt_all {m : Memory} {a : Nat} (h : ∀ c ∈ m, a < c.1) :
    Memory.read m a = Memory.unlisted := by
  induction m with
  | nil => rfl
  | cons c m ih =>
    have hc : c.1 ≠ a := by have := h c (by simp); omega
    rw [Memory.read_cons, if_neg hc]
    exact ih fun d hd => h d (by simp [hd])

theorem Memory.read_write_other (m : Memory) {a x : Nat} (v : Byte) (h : x ≠ a) :
    Memory.read (m.write a v) x = m.read x := by
  induction m with
  | nil => simp only [Memory.write]; split <;> simp [Memory.read_cons, Ne.symm h]
  | cons c m ih =>
    simp only [Memory.write]
    split
    · split <;> simp [Memory.read_cons, Ne.symm h]
    · split
      · next hac => split <;> simp [Memory.read_cons, ← hac, Ne.symm h]
      · simp [Memory.read_cons, ih]

theorem Memory.read_write_same {m : Memory} (h : Memory.wf m) (a : Nat) (v : Byte) :
    Memory.read (m.write a v) a = v := by
  induction m with
  | nil => simp only [Memory.write]; split <;> simp_all [Memory.read_cons]
  | cons c m ih =>
    obtain ⟨hp, hv⟩ := h
    rw [List.pairwise_cons] at hp
    simp only [Memory.write]
    split
    · next hlt =>
      split
      · next hz =>
        rw [Memory.read_of_lt_all, hz]
        intro d hd
        rcases List.mem_cons.1 hd with rfl | hd
        · exact hlt
        · have := hp.1 d hd; omega
      · simp [Memory.read_cons]
    · split
      · next hac =>
        split
        · next hz =>
          rw [Memory.read_of_lt_all, hz]
          intro d hd
          have := hp.1 d hd; omega
        · simp [Memory.read_cons]
      · next hne =>
        rw [Memory.read_cons, if_neg (Ne.symm hne)]
        exact ih ⟨hp.2, fun d hd => hv d (by simp [hd])⟩

/-- An entry after a write is an entry from before or the one written. -/
theorem Memory.mem_write {m : Memory} {a : Nat} {v : Byte} {c : Host.Cell}
    (h : c ∈ m.write a v) : c ∈ m ∨ (c = (a, v) ∧ v ≠ Memory.unlisted) := by
  induction m with
  | nil =>
    simp only [Memory.write] at h
    split at h <;> simp_all
  | cons d m ih =>
    simp only [Memory.write] at h
    split at h
    · split at h <;> simp_all
      tauto
    · split at h
      · split at h <;> simp_all
        tauto
      · rcases List.mem_cons.1 h with rfl | h
        · simp
        · rcases ih h with h | h
          · simp [h]
          · exact .inr h

/-- A write inside the buffer keeps the canonical form. -/
theorem Memory.write_wf {m : Memory} (h : Memory.wf m) {a : Nat} (ha : a < Config.bmax) (v : Byte) :
    Memory.wf (m.write a v) := by
  refine ⟨?_, fun c hc => ?_⟩
  · obtain ⟨hp, -⟩ := h
    induction m with
    | nil => simp only [Memory.write]; split <;> simp
    | cons c m ih =>
      have hp' := List.pairwise_cons.1 hp
      simp only [Memory.write]
      split
      · next hlt =>
        split
        · exact hp
        · refine List.pairwise_cons.2 ⟨fun d hd => ?_, hp⟩
          rcases List.mem_cons.1 hd with rfl | hd
          · exact hlt
          · have := hp'.1 d hd; show a < d.1; omega
      · split
        · next hac =>
          split
          · exact hp'.2
          · exact List.pairwise_cons.2 ⟨fun d hd => hac ▸ hp'.1 d hd, hp'.2⟩
        · next hnlt hne =>
          refine List.pairwise_cons.2 ⟨fun d hd => ?_, ih hp'.2⟩
          rcases Memory.mem_write hd with hd | ⟨rfl, -⟩
          · exact hp'.1 d hd
          · show c.1 < a; omega
  · rcases Memory.mem_write hc with hc | ⟨rfl, hv⟩
    · exact h.2 c hc
    · exact ⟨hv, ha⟩

/-- Equal memories are equal data: canonical memories that read alike are the same list. -/
theorem Memory.ext {m n : Memory} (hm : Memory.wf m) (hn : Memory.wf n)
    (h : ∀ a, m.read a = n.read a) : m = n := by
  induction m generalizing n with
  | nil =>
    cases n with
    | nil => rfl
    | cons d n =>
      have := h d.1
      simp only [Memory.read_nil, Memory.read_cons, if_pos] at this
      exact absurd this.symm (hn.2 d (by simp)).1
  | cons c m ih =>
    cases n with
    | nil =>
      have := h c.1
      simp only [Memory.read_nil, Memory.read_cons, if_pos] at this
      exact absurd this (hm.2 c (by simp)).1
    | cons d n =>
      have pm := List.pairwise_cons.1 hm.1
      have pn := List.pairwise_cons.1 hn.1
      have hcd : c.1 = d.1 := by
        rcases Nat.lt_trichotomy c.1 d.1 with hlt | heq | hlt
        · have hc := h c.1
          rw [Memory.read_cons, if_pos rfl, Memory.read_of_lt_all (m := d :: n)] at hc
          · exact absurd hc (hm.2 c (by simp)).1
          · intro e he
            rcases List.mem_cons.1 he with rfl | he
            · exact hlt
            · have := pn.1 e he; omega
        · exact heq
        · have hd := h d.1
          rw [Memory.read_cons (c := d), if_pos rfl, Memory.read_of_lt_all (m := c :: m)] at hd
          · exact absurd hd.symm (hn.2 d (by simp)).1
          · intro e he
            rcases List.mem_cons.1 he with rfl | he
            · exact hlt
            · have := pm.1 e he; omega
      have hv : c.2 = d.2 := by
        have := h c.1
        simpa [Memory.read_cons, hcd] using this
      have htail : m = n := by
        refine ih ⟨pm.2, fun e he => hm.2 e (by simp [he])⟩
          ⟨pn.2, fun e he => hn.2 e (by simp [he])⟩ fun a => ?_
        by_cases ha : a = c.1
        · rw [ha, Memory.read_of_lt_all pm.1, Memory.read_of_lt_all (hcd ▸ pn.1)]
        · have := h a
          rwa [Memory.read_cons, Memory.read_cons, if_neg (Ne.symm ha),
            if_neg (hcd ▸ Ne.symm ha)] at this
      rw [htail, Prod.ext hcd hv]

/-- The buffer of the reset state is in canonical form. -/
theorem reset_buf_wf : Memory.wf State.reset.buf := by decide

/-- `MemWrite` says once what it can do: it stores inside the buffer, or the buffer has no such
byte. -/
theorem memWrite_cases (m : Memory) (a : Nat) (v : Byte) :
    (a < Config.bmax ∧ memWrite m a v = .ok (m.write a v)) ∨
      (Config.bmax ≤ a ∧ memWrite m a v = .error .bufferRange) := by
  unfold memWrite
  by_cases h : a + 1 ≤ Config.bmax
  · exact .inl ⟨h, if_pos h⟩
  · exact .inr ⟨by omega, if_neg h⟩

/-- `MemRead` of a whole block of the buffer succeeds. -/
theorem memRead_block (m : Memory) (a : Alg) :
    memRead m 0 (blockBytes a) = .ok ((List.range (blockBytes a)).map m.read) := by
  have h : blockBytes a ≤ Config.bmax := by cases a <;> decide
  simp [memRead, h]

end Sys2Proof.Machine
end

