-- ==== Sys2Proof/Laws/BlockBuffer.lean ====
section
/-! SUPPORT. The laws of `feed` (40_blockbuffer.md): what one byte does, what a feed leaves alone,
that it succeeds below the block size, and how feeds join. -/

namespace Sys2Proof.Machine

theorem blockBytes_pos (a : Alg) : 0 < blockBytes a := by cases a <;> decide

theorem blockBytes_le_bmax (a : Alg) : blockBytes a ≤ Config.bmax := by cases a <;> decide

theorem lengthFieldBytes_lt_blockBytes (a : Alg) : lengthFieldBytes a < blockBytes a := by
  cases a <;> decide

/-- Everything one byte of a feed can do (R101). -/
theorem feedByte_cases {b : Byte} {s t : State} (h : feedByte b s = .ok t) :
    s.buflen.toNat < Config.bmax ∧
      ((s.buflen.toNat + 1 = blockBytes s.alg ∧
          t = s.flushBlock (s.buf.write s.buflen.toNat b)
            ((List.range (blockBytes s.alg)).map (s.buf.write s.buflen.toNat b).read)) ∨
        (s.buflen.toNat + 1 ≠ blockBytes s.alg ∧
          t = s.keepByte (s.buf.write s.buflen.toNat b))) := by
  unfold feedByte at h
  rcases memWrite_cases s.buf s.buflen.toNat b with ⟨hlt, hw⟩ | ⟨-, hw⟩
  · simp only [hw, memRead_block] at h
    refine ⟨hlt, ?_⟩
    split at h
    · next hb => exact .inl ⟨hb, by simpa using h.symm⟩
    · next hb => exact .inr ⟨hb, by simpa using h.symm⟩
  · simp [hw] at h

/-- Below the block size one byte is always taken. -/
theorem feedByte_succeeds {b : Byte} {s : State} (h : s.buflen.toNat < blockBytes s.alg) :
    ∃ t, feedByte b s = .ok t := by
  have hb := blockBytes_le_bmax s.alg
  unfold feedByte
  rcases memWrite_cases s.buf s.buflen.toNat b with ⟨-, hw⟩ | ⟨hge, -⟩
  · simp only [hw, memRead_block]
    split <;> exact ⟨_, rfl⟩
  · omega

theorem toNat_buflen_succ {n : BitVec 8} {a : Alg} (h : n.toNat < blockBytes a) :
    (n + 1).toNat = n.toNat + 1 := by
  have := blockBytes_le_bmax a
  have : Config.bmax = 128 := rfl
  rw [BitVec.toNat_add]
  simp
  omega

/-- `BUFLEN` after one byte: one more, modulo the block size. -/
theorem feedByte_buflen {b : Byte} {s t : State} (h : feedByte b s = .ok t)
    (hs : s.buflen.toNat < blockBytes s.alg) :
    t.buflen.toNat = (s.buflen.toNat + 1) % blockBytes s.alg := by
  obtain ⟨-, ⟨hb, rfl⟩ | ⟨hb, rfl⟩⟩ := feedByte_cases h
  · simp [hb]
  · rw [keepByte_buflen, toNat_buflen_succ hs, Nat.mod_eq_of_lt (by omega)]

/-- What a feed leaves alone (R100): it writes `BUF`, `BUFLEN` and `H` only. -/
structure FeedFrame (s t : State) : Prop where
  st : t.st = s.st
  alg : t.alg = s.alg
  len : t.len = s.len
  digest : t.digest = s.digest
  dlen : t.dlen = s.dlen
  host : t.host = s.host
  din : t.din = s.din
  resp : t.resp = s.resp

theorem FeedFrame.refl (s : State) : FeedFrame s s := ⟨rfl, rfl, rfl, rfl, rfl, rfl, rfl, rfl⟩

theorem FeedFrame.trans {s t u : State} (h : FeedFrame s t) (k : FeedFrame t u) : FeedFrame s u :=
  ⟨k.st.trans h.st, k.alg.trans h.alg, k.len.trans h.len, k.digest.trans h.digest,
    k.dlen.trans h.dlen, k.host.trans h.host, k.din.trans h.din, k.resp.trans h.resp⟩

theorem feedByte_frame {b : Byte} {s t : State} (h : feedByte b s = .ok t) : FeedFrame s t := by
  obtain ⟨-, ⟨-, rfl⟩ | ⟨-, rfl⟩⟩ := feedByte_cases h <;> constructor <;> rfl

@[simp] theorem feed_nil (s : State) : feed [] s = .ok s := rfl

theorem feed_cons (b : Byte) (data : List Byte) (s : State) :
    feed (b :: data) s =
      match feedByte b s with
      | .error f => .error f
      | .ok t => feed data t := rfl

/-- Peels the first byte off a feed that succeeds. -/
theorem feed_cons_ok {b : Byte} {data : List Byte} {s u : State} (h : feed (b :: data) s = .ok u) :
    ∃ t, feedByte b s = .ok t ∧ feed data t = .ok u := by
  rw [feed_cons] at h
  split at h
  · simp at h
  · next t ht => exact ⟨t, ht, h⟩

theorem feed_frame {data : List Byte} {s t : State} (h : feed data s = .ok t) : FeedFrame s t := by
  induction data generalizing s with
  | nil => cases h; exact .refl _
  | cons b data ih =>
    obtain ⟨u, hu, hd⟩ := feed_cons_ok h
    exact (feedByte_frame hu).trans (ih hd)

/-- Below the block size a feed always succeeds (R100: it raises nothing). -/
theorem feed_succeeds (data : List Byte) {s : State} (h : s.buflen.toNat < blockBytes s.alg) :
    ∃ t, feed data s = .ok t ∧
      t.buflen.toNat = (s.buflen.toNat + data.length) % blockBytes s.alg := by
  induction data generalizing s with
  | nil => exact ⟨s, rfl, by simp [Nat.mod_eq_of_lt h]⟩
  | cons b data ih =>
    obtain ⟨u, hu⟩ := feedByte_succeeds (b := b) h
    have hl := feedByte_buflen hu h
    have ha := (feedByte_frame hu).alg
    obtain ⟨t, ht, htl⟩ := ih (s := u) (by rw [hl, ha]; exact Nat.mod_lt _ (blockBytes_pos _))
    refine ⟨t, by simp [feed_cons, hu, ht], ?_⟩
    rw [htl, hl, ha, Nat.mod_add_mod, List.length_cons]
    congr 1; omega

theorem feed_buflen {data : List Byte} {s t : State} (h : feed data s = .ok t)
    (hs : s.buflen.toNat < blockBytes s.alg) :
    t.buflen.toNat = (s.buflen.toNat + data.length) % blockBytes s.alg := by
  obtain ⟨u, hu, hl⟩ := feed_succeeds data hs
  rw [h] at hu
  cases hu
  exact hl

/-- Feeds join: the first feed, then the second from where it ends (R104). -/
theorem feed_append (x y : List Byte) (s : State) :
    feed (x ++ y) s =
      match feed x s with
      | .error f => .error f
      | .ok t => feed y t := by
  induction x generalizing s with
  | nil => rfl
  | cons b x ih =>
    rw [List.cons_append, feed_cons, feed_cons]
    split
    · next h => simp
    · next t h => simp [ih]

theorem feed_append_ok {x y : List Byte} {s t : State} (h : feed x s = .ok t) :
    feed (x ++ y) s = feed y t := by
  simp [feed_append, h]

/-- A feed keeps the buffer's canonical form. -/
theorem feed_buf_wf {data : List Byte} {s t : State} (h : feed data s = .ok t)
    (hs : Memory.wf s.buf) : Memory.wf t.buf := by
  induction data generalizing s with
  | nil => cases h; exact hs
  | cons b data ih =>
    obtain ⟨u, hu, hd⟩ := feed_cons_ok h
    refine ih hd ?_
    obtain ⟨hlt, ⟨-, rfl⟩ | ⟨-, rfl⟩⟩ := feedByte_cases hu
    · exact Memory.write_wf hs hlt b
    · exact Memory.write_wf hs hlt b

/-- The state `t` with the three registers that a feed writes taken from `u`. -/
def State.withFed (t u : State) : State := { t with h := u.h, buf := u.buf, buflen := u.buflen }

theorem feedByte_eq_of_agree {b : Byte} {s t u : State} (h : feedByte b s = .ok u)
    (ha : t.alg = s.alg) (hh : t.h = s.h) (hb : t.buf = s.buf) (hl : t.buflen = s.buflen) :
    feedByte b t = .ok (t.withFed u) := by
  obtain ⟨hlt, hc⟩ := feedByte_cases h
  have hw : memWrite s.buf s.buflen.toNat b = .ok (s.buf.write s.buflen.toNat b) := if_pos hlt
  unfold feedByte
  rw [ha, hb, hl, hw]
  rcases hc with ⟨hf, rfl⟩ | ⟨hf, rfl⟩
  · simp only [if_pos hf, memRead_block, State.flushBlock, State.withFed, ha, hh]
  · simp only [if_neg hf, State.keepByte, State.withFed, hh, hl]

/-- A feed reads and writes `ALG`, `H`, `BUF`, `BUFLEN` alone (R100): from a state that agrees on
these it does the same, and leaves that state's other fields alone. -/
theorem feed_eq_of_agree {data : List Byte} {s t u : State} (h : feed data s = .ok u)
    (ha : t.alg = s.alg) (hh : t.h = s.h) (hb : t.buf = s.buf) (hl : t.buflen = s.buflen) :
    feed data t = .ok (t.withFed u) := by
  induction data generalizing s t with
  | nil =>
    obtain rfl : s = u := by simpa using h
    simp [State.withFed, ← hh, ← hb, ← hl]
  | cons b data ih =>
    obtain ⟨v, hv, hd⟩ := feed_cons_ok h
    rw [feed_cons, feedByte_eq_of_agree hv ha hh hb hl]
    exact ih (t := t.withFed v) hd (ha.trans (feedByte_frame hv).alg.symm) rfl rfl rfl

/-- A feed that stays inside the block: every byte is stored after the tail and nothing is
compressed. -/
theorem feed_within_block {data : List Byte} {s t : State} (h : feed data s = .ok t)
    (hs : Memory.wf s.buf) (hl : s.buflen.toNat + data.length < blockBytes s.alg) :
    t.h = s.h ∧ t.buflen.toNat = s.buflen.toNat + data.length ∧ t.tail = s.tail ++ data := by
  induction data generalizing s with
  | nil => cases h; simp
  | cons b data ih =>
    obtain ⟨u, hu, hd⟩ := feed_cons_ok h
    simp only [List.length_cons] at hl ⊢
    obtain ⟨hlt, ⟨hb, -⟩ | ⟨-, rfl⟩⟩ := feedByte_cases hu
    · omega
    · have hn : (s.buflen + 1).toNat = s.buflen.toNat + 1 := toNat_buflen_succ (a := s.alg) (by omega)
      obtain ⟨h1, h2, h3⟩ := ih hd (Memory.write_wf hs hlt b) (by
        simp only [keepByte_buflen, keepByte_alg, hn]; omega)
      refine ⟨h1, by rw [h2, keepByte_buflen, hn]; omega, ?_⟩
      rw [h3]
      have : (s.keepByte (s.buf.write s.buflen.toNat b)).tail = s.tail ++ [b] := by
        simp only [State.tail, State.bufByte, keepByte_buflen, keepByte_buf, hn,
          List.range_succ, List.map_append, List.map_cons, List.map_nil,
          Memory.read_write_same hs]
        congr 1
        refine List.map_congr_left fun i hi => ?_
        have := List.mem_range.1 hi
        exact Memory.read_write_other _ _ (by omega)
      rw [this]; simp

end Sys2Proof.Machine
end

