-- ==== Sys2Proof/Laws/Absorb.lean ====
section
/-! SUPPORT. The byte-serial feed in the block-wise form of 40_blockbuffer.md R104, and where its
bytes are stored. -/

namespace Sys2Proof.Machine

@[simp] theorem length_tail (s : State) : s.tail.length = s.buflen.toNat := by simp [State.tail]

theorem wholeBlocks_short {size : Nat} {data : List Byte} (h : data.length < size) :
    wholeBlocks size data = [] := by
  simp [wholeBlocks, Nat.div_eq_of_lt h]

theorem remainder_short {size : Nat} {data : List Byte} (h : data.length < size) :
    remainder size data = data := by
  simp [remainder, Nat.div_eq_of_lt h]

theorem length_block_append_div {size : Nat} {block : List Byte} (hb : block.length = size)
    (hs : 0 < size) (data : List Byte) :
    (block ++ data).length / size = data.length / size + 1 := by
  rw [List.length_append, hb, Nat.add_comm, Nat.add_div_right _ hs]

/-- The first block of a sequence that begins with a whole block. -/
theorem wholeBlocks_block {size : Nat} {block : List Byte} (hb : block.length = size)
    (hs : 0 < size) (data : List Byte) :
    wholeBlocks size (block ++ data) = block :: wholeBlocks size data := by
  simp only [wholeBlocks, length_block_append_div hb hs, List.range_succ_eq_map, List.map_cons,
    List.map_map, List.cons.injEq]
  refine ⟨by simp [slice, ← hb], List.map_congr_left fun j _ => ?_⟩
  show ((block ++ data).drop ((j + 1) * size)).take size = _
  rw [Nat.succ_mul, Nat.add_comm, ← hb, ← List.drop_drop, List.drop_left]
  rfl

theorem remainder_block {size : Nat} {block : List Byte} (hb : block.length = size)
    (hs : 0 < size) (data : List Byte) :
    remainder size (block ++ data) = remainder size data := by
  simp only [remainder, length_block_append_div hb hs]
  rw [Nat.succ_mul, Nat.add_comm, ← hb, ← List.drop_drop, List.drop_left]

theorem absorb_short {a : Alg} {h : HashRegs} {data : List Byte}
    (hd : data.length < blockBytes a) : absorb a h data = h := by
  simp [absorb, wholeBlocks_short hd]

theorem absorb_block {a : Alg} {block : List Byte} (hb : block.length = blockBytes a)
    (h : HashRegs) (data : List Byte) :
    absorb a h (block ++ data) = absorb a (compress a h block) data := by
  simp [absorb, wholeBlocks_block hb (blockBytes_pos a)]

/-- Blocks and remainder of a sequence that continues another: the remainder of the first is
carried into the second (R104). -/
theorem wholeBlocks_append {size : Nat} (hs : 0 < size) (x y : List Byte) :
    wholeBlocks size (x ++ y) = wholeBlocks size x ++ wholeBlocks size (remainder size x ++ y) ∧
      remainder size (x ++ y) = remainder size (remainder size x ++ y) := by
  induction h : x.length / size using Nat.strong_induction_on generalizing x with
  | _ n ih =>
    by_cases hx : x.length < size
    · simp [wholeBlocks_short hx, remainder_short hx]
    · have hsplit : x = x.take size ++ x.drop size := by simp
      have hb : (x.take size).length = size := by simp; omega
      have hd : (x.drop size).length / size < n := by
        have := length_block_append_div hb hs (x.drop size)
        rw [← hsplit] at this; omega
      obtain ⟨i1, i2⟩ := ih _ hd (x.drop size) rfl
      constructor
      · conv_lhs => rw [hsplit]
        conv_rhs => rw [hsplit]
        rw [List.append_assoc, wholeBlocks_block hb hs, wholeBlocks_block hb hs,
          remainder_block hb hs, i1]
        rfl
      · conv_lhs => rw [hsplit]
        conv_rhs => rw [hsplit]
        rw [List.append_assoc, remainder_block hb hs, remainder_block hb hs, i2]

theorem absorb_append (a : Alg) (h : HashRegs) (x y : List Byte) :
    absorb a h (x ++ y) = absorb a (absorb a h x) (remainder (blockBytes a) x ++ y) := by
  simp [absorb, (wholeBlocks_append (blockBytes_pos a) x y).1]

theorem remainder_append (a : Alg) (x y : List Byte) :
    remainder (blockBytes a) (x ++ y) =
      remainder (blockBytes a) (remainder (blockBytes a) x ++ y) :=
  (wholeBlocks_append (blockBytes_pos a) x y).2

/-- What every compression keeps, a fold of compressions keeps. -/
theorem absorb_induction {P : HashRegs → Prop} {a : Alg}
    (hc : ∀ h block, P h → P (compress a h block)) {h : HashRegs} (data : List Byte) (h0 : P h) :
    P (absorb a h data) := by
  unfold absorb
  generalize wholeBlocks (blockBytes a) data = bs
  induction bs generalizing h with
  | nil => exact h0
  | cons b bs ih => exact ih (hc _ _ h0)

/-- The bytes `BUF[0 .. BUFLEN]` once the byte at `BUFLEN` is written: the tail and that byte. -/
theorem map_read_write {s : State} (hs : Memory.wf s.buf) (b : Byte) :
    (List.range (s.buflen.toNat + 1)).map (s.buf.write s.buflen.toNat b).read = s.tail ++ [b] := by
  rw [List.range_succ, List.map_append]
  congr 1
  · refine List.map_congr_left fun i hi => ?_
    have := List.mem_range.1 hi
    exact Memory.read_write_other _ _ (by omega)
  · simp [Memory.read_write_same hs]

/-- `feed` in its block-wise form (R104): the old tail joined with the data, its whole blocks folded
into `H`, the rest left as the tail. -/
theorem feed_blockwise {data : List Byte} {s t : State} (h : feed data s = .ok t)
    (hs : Memory.wf s.buf) (hl : s.buflen.toNat < blockBytes s.alg) :
    t.h = absorb s.alg s.h (s.tail ++ data) ∧
      t.tail = remainder (blockBytes s.alg) (s.tail ++ data) := by
  induction data generalizing s with
  | nil =>
    cases h
    have hn : t.tail.length < blockBytes t.alg := by simpa using hl
    simp [absorb_short hn, remainder_short hn]
  | cons b data ih =>
    obtain ⟨u, hu, hd⟩ := feed_cons_ok h
    have hul := feedByte_buflen hu hl
    have hlt' : u.buflen.toNat < blockBytes u.alg := by
      rw [(feedByte_frame hu).alg, hul]; exact Nat.mod_lt _ (blockBytes_pos _)
    have hjoin : s.tail ++ b :: data = (s.tail ++ [b]) ++ data := by simp
    obtain ⟨hlt, ⟨hb, rfl⟩ | ⟨hb, rfl⟩⟩ := feedByte_cases hu
    · obtain ⟨h1, h2⟩ := ih hd (Memory.write_wf hs hlt b) hlt'
      have htail : ∀ m d, (s.flushBlock m d).tail = [] := fun m d => by simp [State.tail]
      have hlen : (s.tail ++ [b]).length = blockBytes s.alg := by simp [hb]
      rw [htail, List.nil_append] at h1 h2
      rw [← hb, map_read_write hs] at h1
      rw [hjoin, absorb_block hlen, remainder_block hlen (blockBytes_pos _)]
      exact ⟨h1, h2⟩
    · obtain ⟨h1, h2⟩ := ih hd (Memory.write_wf hs hlt b) hlt'
      have htail : (s.keepByte (s.buf.write s.buflen.toNat b)).tail = s.tail ++ [b] := by
        simp only [State.tail, keepByte_buflen, toNat_buflen_succ (a := s.alg) hl]
        exact map_read_write hs b
      rw [htail] at h1 h2
      rw [hjoin]
      exact ⟨h1, h2⟩

/-- Where a feed stores (R101): a byte of the buffer that is the address of none of the fed bytes
reads as before. -/
theorem feed_bufByte_other {data : List Byte} {s t : State} (h : feed data s = .ok t)
    (hl : s.buflen.toNat < blockBytes s.alg) {x : Nat}
    (hx : ∀ k, k < data.length → x ≠ feedAddress s.alg s.buflen.toNat k) :
    t.bufByte x = s.bufByte x := by
  induction data generalizing s with
  | nil => cases h; rfl
  | cons b data ih =>
    obtain ⟨u, hu, hd⟩ := feed_cons_ok h
    have hul := feedByte_buflen hu hl
    have hua := (feedByte_frame hu).alg
    have h0 : x ≠ s.buflen.toNat := by
      have := hx 0 (by simp)
      rwa [feedAddress, Nat.add_zero, Nat.mod_eq_of_lt hl] at this
    rw [ih hd (by rw [hua, hul]; exact Nat.mod_lt _ (blockBytes_pos _))]
    · obtain ⟨-, ⟨-, rfl⟩ | ⟨-, rfl⟩⟩ := feedByte_cases hu <;>
        exact Memory.read_write_other _ _ h0
    · intro k hk
      have := hx (k + 1) (by simpa using hk)
      rw [hua, hul]
      simp only [feedAddress, Nat.mod_add_mod] at this ⊢
      rwa [show s.buflen.toNat + 1 + k = s.buflen.toNat + (k + 1) by omega]

end Sys2Proof.Machine
end

