-- ==== Sys2Proof/Laws/Padding.lean ====
section
/-! SUPPORT. The laws of padding (44_padding.md) and of the byte conversions. -/

namespace Sys2Proof.Machine

@[simp] theorem length_toLe (v k : Nat) : (toLe v k).length = k := by simp [toLe]

@[simp] theorem length_toBe (v k : Nat) : (toBe v k).length = k := by simp [toBe]

@[simp] theorem length_lengthField (a : Alg) (n : Nat) :
    (lengthField a n).length = lengthFieldBytes a := by
  cases a <;> simp [lengthField, lengthFieldBytes]

theorem length_padString (a : Alg) (n len : Nat) :
    (padString a n len).length = 1 + padZeros a n + lengthFieldBytes a := by
  simp [padString]; omega

/-- The tail and the padding make a whole number of blocks (R184). -/
theorem padString_fills {a : Alg} {n : Nat} (h : n < blockBytes a) (len : Nat) :
    (n + (padString a n len).length) % blockBytes a = 0 := by
  rw [length_padString]
  cases a <;> simp only [padZeros, blockBytes, lengthFieldBytes] at h ⊢ <;> omega

/-- Below the block size padding always succeeds, and it leaves the buffer empty (R189 (e)). -/
theorem padAndCompress_succeeds {s : State} (h : s.buflen.toNat < blockBytes s.alg) :
    ∃ t, padAndCompress s = .ok t ∧
      feed (padString s.alg s.buflen.toNat s.len.toNat) s = .ok t ∧ t.buflen = 0 := by
  obtain ⟨t, ht, hl⟩ := feed_succeeds (padString s.alg s.buflen.toNat s.len.toNat) h
  rw [padString_fills h] at hl
  exact ⟨t, by rw [padAndCompress, if_pos h, ht], ht, BitVec.eq_of_toNat_eq (by simpa using hl)⟩

/-- Everything padding can do: the feed of the padding string, or a breach of its precondition. -/
theorem padAndCompress_cases {s t : State} (h : padAndCompress s = .ok t) :
    s.buflen.toNat < blockBytes s.alg ∧
      feed (padString s.alg s.buflen.toNat s.len.toNat) s = .ok t ∧ t.buflen = 0 := by
  by_cases hl : s.buflen.toNat < blockBytes s.alg
  · obtain ⟨u, hu, hf, h0⟩ := padAndCompress_succeeds hl
    rw [h] at hu
    cases hu
    exact ⟨hl, hf, h0⟩
  · simp [padAndCompress, hl] at h

end Sys2Proof.Machine
end

