-- ==== Sys2Proof/Laws/Commands.lean ====
section
/-! SUPPORT. What each command's shared meaning can do, said once: which state it answers, and
under which condition. -/

namespace Sys2Proof.Machine

theorem framed_eq {n : Nat} {body : State → Host.Outcome State Fault Refusal} {s : State}
    (h : s.din.length = n) : framed n body s = body s := if_pos h

/-- A framed command that answers had exactly the payload its word asks for. -/
theorem framed_next {n : Nat} {body : State → Host.Outcome State Fault Refusal} {s t : State}
    (h : framed n body s = .next t) : s.din.length = n ∧ body s = .next t := by
  unfold framed at h
  split at h
  · next hn => exact ⟨hn, h⟩
  · simp at h

theorem respond_next {k : Status} {out : List Byte} {s t : State}
    (h : respond k out s = .next t) : t = s.answer ⟨k, out⟩ := by
  simpa [respond, eq_comm] using h

theorem newSupported_answers (a : Alg) {s : State} (h : s.din = []) :
    newSupported a s = .next ((newContext a s).answer ⟨.ok, []⟩) :=
  framed_eq (by rw [h, List.length_nil])

theorem newUnsupported_answers {s : State} (h : s.din = []) :
    newUnsupported s = .next (s.answer ⟨.unsupportedAlgorithm, []⟩) :=
  framed_eq (by rw [h, List.length_nil])

theorem execUpdate_refused {s : State} (h : s.st = .idle ∨ s.st = .finalized) :
    execUpdate s.din.length s = .next (s.answer ⟨.invalidState, []⟩) := by
  rcases h with h | h <;> simp [execUpdate, framed, h, raise, respond]

theorem execUpdate_overflows {s : State} (h : s.isOpen = true)
    (hl : maxBits s.alg < s.len.toNat + 8 * s.din.length) :
    execUpdate s.din.length s = .next (s.answer ⟨.lengthOverflow, []⟩) := by
  have hu : updateContext s.din.length s = .next (s.answer ⟨.lengthOverflow, []⟩) := if_pos hl
  cases hst : s.st <;> simp_all [execUpdate, framed, State.isOpen]

theorem execUpdate_feeds {s u : State} (h : s.isOpen = true)
    (hl : s.len.toNat + 8 * s.din.length ≤ maxBits s.alg) (hf : feed s.din s = .ok u) :
    execUpdate s.din.length s = .next ((countBits s.din.length u).answer ⟨.ok, []⟩) := by
  have hu : updateContext s.din.length s =
      .next ((countBits s.din.length u).answer ⟨.ok, []⟩) := by
    rw [updateContext, if_neg (by omega), hf]; rfl
  cases hst : s.st <;> simp_all [execUpdate, framed, State.isOpen]

theorem execFinalize_refused {s : State} (hd : s.din = []) (h : s.st = .idle ∨ s.st = .finalized) :
    execFinalize s = .next (s.answer ⟨.invalidState, []⟩) := by
  rcases h with h | h <;> simp [execFinalize, framed, hd, h, raise, respond]

theorem execFinalize_pads {s u : State} (hd : s.din = []) (h : s.isOpen = true)
    (hp : padAndCompress s = .ok u) :
    execFinalize s = .next ((latchDigest u).answer ⟨.ok, (latchDigest u).heldDigest⟩) := by
  have hu : finalizeContext s =
      .next ((latchDigest u).answer ⟨.ok, (latchDigest u).heldDigest⟩) := by
    rw [finalizeContext, hp]; rfl
  cases hst : s.st <;> simp_all [execFinalize, framed, State.isOpen]

theorem formatDigest_refused (m : Mode) {s : State} (hd : s.din = []) (h : s.st ≠ .finalized) :
    formatDigest m s = .next (s.answer ⟨.invalidState, []⟩) := by
  cases hst : s.st <;> simp_all [formatDigest, framed, raise, respond]

theorem formatDigest_renders (m : Mode) {s : State} (hd : s.din = []) (h : s.st = .finalized) :
    formatDigest m s = .next (s.answer ⟨.ok, render m s.heldDigest⟩) := by
  simp [formatDigest, framed, hd, h, respond]

/-- Everything NEW with a supported algorithm can do (R191). -/
theorem newSupported_cases {a : Alg} {s t : State} (h : newSupported a s = .next t) :
    s.din.length = 0 ∧ t = (newContext a s).answer ⟨.ok, []⟩ :=
  ⟨(framed_next h).1, respond_next (framed_next h).2⟩

/-- Everything NEW with an unsupported id can do (R194). -/
theorem newUnsupported_cases {s t : State} (h : newUnsupported s = .next t) :
    s.din.length = 0 ∧ t = s.answer ⟨.unsupportedAlgorithm, []⟩ :=
  ⟨(framed_next h).1, respond_next (framed_next h).2⟩

/-- Everything UPDATE can do (R195 to R197). -/
theorem execUpdate_cases {n : Nat} {s t : State} (h : execUpdate n s = .next t) :
    s.din.length = n ∧
      (((s.st = .idle ∨ s.st = .finalized) ∧ t = s.answer ⟨.invalidState, []⟩) ∨
        ((s.st = .fresh ∨ s.st = .active) ∧ maxBits s.alg < s.len.toNat + 8 * n ∧
          t = s.answer ⟨.lengthOverflow, []⟩) ∨
        ((s.st = .fresh ∨ s.st = .active) ∧ s.len.toNat + 8 * n ≤ maxBits s.alg ∧
          ∃ u, feed s.din s = .ok u ∧ t = (countBits n u).answer ⟨.ok, []⟩)) := by
  obtain ⟨hn, hb⟩ := framed_next h
  refine ⟨hn, ?_⟩
  have hopen : updateContext n s = .next t →
      (maxBits s.alg < s.len.toNat + 8 * n ∧ t = s.answer ⟨.lengthOverflow, []⟩) ∨
        (s.len.toNat + 8 * n ≤ maxBits s.alg ∧
          ∃ u, feed s.din s = .ok u ∧ t = (countBits n u).answer ⟨.ok, []⟩) := by
    intro hu
    unfold updateContext at hu
    split at hu
    · next ho => exact .inl ⟨ho, respond_next hu⟩
    · next ho =>
      split at hu
      · simp at hu
      · next u hf => exact .inr ⟨by omega, u, hf, respond_next hu⟩
  cases hst : s.st <;> simp only [hst] at hb
  · exact .inl ⟨.inl rfl, respond_next hb⟩
  · rcases hopen hb with ⟨ho, ht⟩ | ⟨ho, ht⟩
    · exact .inr (.inl ⟨.inl rfl, ho, ht⟩)
    · exact .inr (.inr ⟨.inl rfl, ho, ht⟩)
  · rcases hopen hb with ⟨ho, ht⟩ | ⟨ho, ht⟩
    · exact .inr (.inl ⟨.inr rfl, ho, ht⟩)
    · exact .inr (.inr ⟨.inr rfl, ho, ht⟩)
  · exact .inl ⟨.inr rfl, respond_next hb⟩

/-- Everything FINALIZE can do (R200, R201). -/
theorem execFinalize_cases {s t : State} (h : execFinalize s = .next t) :
    s.din.length = 0 ∧
      (((s.st = .idle ∨ s.st = .finalized) ∧ t = s.answer ⟨.invalidState, []⟩) ∨
        ((s.st = .fresh ∨ s.st = .active) ∧
          ∃ u, padAndCompress s = .ok u ∧
            t = (latchDigest u).answer ⟨.ok, (latchDigest u).heldDigest⟩)) := by
  obtain ⟨hn, hb⟩ := framed_next h
  refine ⟨hn, ?_⟩
  have hopen : finalizeContext s = .next t →
      ∃ u, padAndCompress s = .ok u ∧
        t = (latchDigest u).answer ⟨.ok, (latchDigest u).heldDigest⟩ := by
    intro hf
    unfold finalizeContext at hf
    split at hf
    · simp at hf
    · next u hu => exact ⟨u, hu, respond_next hf⟩
  cases hst : s.st <;> simp only [hst] at hb
  · exact .inl ⟨.inl rfl, respond_next hb⟩
  · exact .inr ⟨.inl rfl, hopen hb⟩
  · exact .inr ⟨.inr rfl, hopen hb⟩
  · exact .inl ⟨.inr rfl, respond_next hb⟩

/-- Everything FORMAT can do (R220, R224). -/
theorem formatDigest_cases {m : Mode} {s t : State} (h : formatDigest m s = .next t) :
    s.din.length = 0 ∧
      ((s.st ≠ .finalized ∧ t = s.answer ⟨.invalidState, []⟩) ∨
        (s.st = .finalized ∧ t = s.answer ⟨.ok, render m s.heldDigest⟩)) := by
  obtain ⟨hn, hb⟩ := framed_next h
  refine ⟨hn, ?_⟩
  cases hst : s.st <;> simp only [hst] at hb
  · exact .inl ⟨by decide, respond_next hb⟩
  · exact .inl ⟨by decide, respond_next hb⟩
  · exact .inl ⟨by decide, respond_next hb⟩
  · exact .inr ⟨rfl, respond_next hb⟩

/-- Everything a command can do, by what answers it: an error that writes nothing, a new context,
an update, a finalisation or a rendering. One inversion for all twenty commands. -/
theorem exec_cases {i : Instr} {s t : State} (h : exec i s = .next t) :
    s.din.length = i.payloadBytes ∧
      ((∃ k, k ≠ .ok ∧ t = s.answer ⟨k, []⟩) ∨
        (∃ a, i = newInstr a ∧ t = (newContext a s).answer ⟨.ok, []⟩) ∨
        (∃ n u, i = .update n ∧ (s.st = .fresh ∨ s.st = .active) ∧
          s.len.toNat + 8 * n ≤ maxBits s.alg ∧ feed s.din s = .ok u ∧
          t = (countBits n u).answer ⟨.ok, []⟩) ∨
        (∃ u, i = .finalize ∧ (s.st = .fresh ∨ s.st = .active) ∧ padAndCompress s = .ok u ∧
          t = (latchDigest u).answer ⟨.ok, (latchDigest u).heldDigest⟩) ∨
        (∃ m, i = formatInstr m ∧ s.st = .finalized ∧
          t = s.answer ⟨.ok, render m s.heldDigest⟩)) := by
  have hnew : ∀ a, newSupported a s = .next t → s.din.length = 0 ∧
      t = (newContext a s).answer ⟨.ok, []⟩ := fun a => newSupported_cases
  have hformat : ∀ m, formatDigest m s = .next t → s.din.length = 0 ∧
      ((∃ k, k ≠ .ok ∧ t = s.answer ⟨k, []⟩) ∨
        (s.st = .finalized ∧ t = s.answer ⟨.ok, render m s.heldDigest⟩)) := by
    intro m hm
    rcases formatDigest_cases hm with ⟨hd, ⟨-, ht⟩ | ⟨hf, ht⟩⟩
    · exact ⟨hd, .inl ⟨.invalidState, by decide, ht⟩⟩
    · exact ⟨hd, .inr ⟨hf, ht⟩⟩
  cases i with
  | newMd5 => exact ⟨(hnew _ h).1, .inr (.inl ⟨.md5, rfl, (hnew _ h).2⟩)⟩
  | newSha1 => exact ⟨(hnew _ h).1, .inr (.inl ⟨.sha1, rfl, (hnew _ h).2⟩)⟩
  | newSha224 => exact ⟨(hnew _ h).1, .inr (.inl ⟨.sha224, rfl, (hnew _ h).2⟩)⟩
  | newSha256 => exact ⟨(hnew _ h).1, .inr (.inl ⟨.sha256, rfl, (hnew _ h).2⟩)⟩
  | newSha384 => exact ⟨(hnew _ h).1, .inr (.inl ⟨.sha384, rfl, (hnew _ h).2⟩)⟩
  | newSha512 => exact ⟨(hnew _ h).1, .inr (.inl ⟨.sha512, rfl, (hnew _ h).2⟩)⟩
  | update n =>
    rcases execUpdate_cases h with ⟨hd, ⟨-, ht⟩ | ⟨-, -, ht⟩ | ⟨hs, hl, u, hu, ht⟩⟩
    · exact ⟨hd, .inl ⟨.invalidState, by decide, ht⟩⟩
    · exact ⟨hd, .inl ⟨.lengthOverflow, by decide, ht⟩⟩
    · exact ⟨hd, .inr (.inr (.inl ⟨n, u, rfl, hs, hl, hu, ht⟩))⟩
  | finalize =>
    rcases execFinalize_cases h with ⟨hd, ⟨-, ht⟩ | ⟨hs, u, hu, ht⟩⟩
    · exact ⟨hd, .inl ⟨.invalidState, by decide, ht⟩⟩
    · exact ⟨hd, .inr (.inr (.inr (.inl ⟨u, rfl, hs, hu, ht⟩)))⟩
  | formatRaw =>
    rcases hformat .raw h with ⟨hd, hk | ⟨hs, ht⟩⟩
    · exact ⟨hd, .inl hk⟩
    · exact ⟨hd, .inr (.inr (.inr (.inr ⟨.raw, rfl, hs, ht⟩)))⟩
  | formatHex =>
    rcases hformat .hex h with ⟨hd, hk | ⟨hs, ht⟩⟩
    · exact ⟨hd, .inl hk⟩
    · exact ⟨hd, .inr (.inr (.inr (.inr ⟨.hex, rfl, hs, ht⟩)))⟩
  | _ =>
    exact ⟨(newUnsupported_cases h).1,
      .inl ⟨.unsupportedAlgorithm, by decide, (newUnsupported_cases h).2⟩⟩

/-- A command that answers leaves its response on the ports (R82). -/
theorem exec_answers {i : Instr} {s t : State} (h : exec i s = .next t) :
    ∃ r, t.resp = some r := by
  rcases (exec_cases h).2 with ⟨k, -, rfl⟩ | ⟨a, -, rfl⟩ | ⟨n, u, -, -, -, -, rfl⟩ |
    ⟨u, -, -, -, rfl⟩ | ⟨m, -, -, rfl⟩ <;> exact ⟨_, rfl⟩

/-- Issuing a pair whose word decodes to a command is that command's meaning with the payload on
DIN; the host's further inputs stay. -/
theorem issue_eq {c : Command} {i : Instr} (h : decode c.word = .ok i) (s : State) :
    issue c s = exec i { s with din := c.payload } := by
  show (match decode c.word with
    | .ok i => exec i { s with din := c.payload }
    | .error _ => execIllegal (paylen c.word) { s with din := c.payload }) = _
  rw [h]

/-- Everything a step can do when it answers: it waits, resets, runs the decoded command, or
raises IllegalCommand. -/
theorem step_cases {s t : State} (h : step s = .next t) :
    (s.host = [] ∧ t = s) ∨
      (∃ rest, s.host = .reset :: rest ∧ t = takeReset rest) ∨
      (∃ c rest i, s.host = .command c :: rest ∧ decode c.word = .ok i ∧
        exec i (s.present c.payload rest) = .next t) ∨
      (∃ c rest r, s.host = .command c :: rest ∧ decode c.word = .error r ∧
        c.payload.length = paylen c.word ∧
        t = (s.present c.payload rest).answer ⟨.illegalCommand, []⟩) := by
  unfold step at h
  split at h
  · next hh => exact .inl ⟨hh, by simpa [eq_comm] using h⟩
  · next rest hh => exact .inr (.inl ⟨rest, hh, by simpa [eq_comm] using h⟩)
  · next c rest hh =>
    split at h
    · next i hi => exact .inr (.inr (.inl ⟨c, rest, i, hh, hi, h⟩))
    · next r hr =>
      obtain ⟨hn, ht⟩ := framed_next h
      exact .inr (.inr (.inr ⟨c, rest, r, hh, hr, by simpa using hn, respond_next ht⟩))

end Sys2Proof.Machine
end

