-- ==== Sys2Proof/Laws/Decode.lean ====
section
/-! SUPPORT. The fields of a command word put together by `commandWord`, and the payload length. -/

namespace Sys2Proof

section
variable (op arg : BitVec 4) (cnt : BitVec 24)

@[simp] theorem opField_commandWord : opField (commandWord op arg cnt) = op := by
  refine BitVec.eq_of_getLsbD_eq fun i hi => ?_
  simp only [opField, commandWord, BitVec.getLsbD_extractLsb', BitVec.getLsbD_append, hi,
    decide_true, Bool.true_and]
  simp [show ¬ 28 + i < 24 by omega, show ¬ 28 + i - 24 < 4 by omega]
  congr 1; omega

@[simp] theorem argField_commandWord : argField (commandWord op arg cnt) = arg := by
  refine BitVec.eq_of_getLsbD_eq fun i hi => ?_
  simp only [argField, commandWord, BitVec.getLsbD_extractLsb', BitVec.getLsbD_append, hi,
    decide_true, Bool.true_and]
  simp [show ¬ 24 + i < 24 by omega, hi]

@[simp] theorem cntField_commandWord : cntField (commandWord op arg cnt) = cnt := by
  refine BitVec.eq_of_getLsbD_eq fun i hi => ?_
  simp only [cntField, commandWord, BitVec.getLsbD_extractLsb', BitVec.getLsbD_append, hi,
    decide_true, Bool.true_and]
  simp [hi]

end

theorem paylen_commandWord_update (cnt : BitVec 24) : paylen (commandWord 0x2 0 cnt) = cnt.toNat := by
  simp [paylen]

theorem paylen_commandWord_other {op : BitVec 4} (h : op ≠ 0x2#4) (arg : BitVec 4) (cnt : BitVec 24) :
    paylen (commandWord op arg cnt) = 0 := by
  simp [paylen, h]

end Sys2Proof
end

