-- ==== Sys2Proof/Laws/Digest.lean ====
section
/-! SUPPORT. The laws of the digest that FINALIZE latches (45_context_commands.md R203, R204). -/

namespace Sys2Proof.Machine

theorem digestBytes_le_dmax (a : Alg) : digestBytes a ≤ Config.dmax := by cases a <;> decide

theorem toNat_digestBytes (a : Alg) : (BitVec.ofNat 7 (digestBytes a)).toNat = digestBytes a := by
  cases a <;> rfl

theorem length_digestOf (a : Alg) (h : HashRegs) : (digestOf a h).length = digestBytes a := by
  cases a <;>
    simp [digestOf, serialise, hashWords, digestBytes, wordBytes, toBe, toLe, List.range_succ]

/-- The digest held after the latch is the digest of the register file. -/
theorem heldDigest_latchDigest (s : State) : (latchDigest s).heldDigest = digestOf s.alg s.h := by
  have hl := length_digestOf s.alg s.h
  have hm := digestBytes_le_dmax s.alg
  simp only [State.heldDigest, latchDigest_dlen, latchDigest_digest, toNat_digestBytes]
  refine List.ext_getElem (by simp [hl]; omega) fun i h1 h2 => ?_
  simp [writeDigest, h2, List.getD_eq_getElem?_getD]

end Sys2Proof.Machine
end

