-- ==== Sys2Proof/Laws/HostSide.lean ====
section
/-! SUPPORT. The small lemmas of the host's side: the slices of a long UPDATE, and how runs of
commands join. -/

namespace Sys2Proof.Machine

theorem maxChunk_eq : maxChunk = 16777215 := by norm_num [maxChunk, Config.cntw]

theorem maxChunk_pos : 0 < maxChunk := by rw [maxChunk_eq]; omega

@[simp] theorem updateCommand_payload (d : List Byte) : (updateCommand d).payload = d := rfl

@[simp] theorem updateCommand_word (d : List Byte) :
    (updateCommand d).word = encode (.update d.length) := rfl

@[simp] theorem commandOf_payload (i : Instr) : (commandOf i).payload = [] := rfl

@[simp] theorem commandOf_word (i : Instr) : (commandOf i).word = encode i := rfl

/-- Enough consecutive slices of one size join to the whole. -/
theorem flatten_slices {size : Nat} (data : List Byte) {k : Nat}
    (hk : data.length ≤ k * size) :
    ((List.range k).map fun j => slice data (j * size) size).flatten = data := by
  induction k generalizing data with
  | zero =>
    have : data = [] := List.length_eq_zero_iff.1 (by omega)
    subst this; rfl
  | succ k ih =>
    have hrest : (fun j => slice data (j * size) size) ∘ Nat.succ =
        fun j => slice (data.drop size) (j * size) size := by
      funext j; simp [slice, Nat.succ_mul, Nat.add_comm]
    rw [List.range_succ_eq_map, List.map_cons, List.map_map, List.flatten_cons, hrest,
      ih (data.drop size) (by rw [List.length_drop]; rw [Nat.succ_mul] at hk; omega)]
    simp [slice]

theorem flatten_chunks (data : List Byte) : (chunks data).flatten = data := by
  unfold chunks
  generalize hm : maxChunk = m
  have hpos : 0 < m := hm ▸ maxChunk_pos
  have h1 := Nat.div_add_mod (data.length + m - 1) m
  have h2 := Nat.mod_lt (data.length + m - 1) hpos
  refine flatten_slices data (Nat.le_trans ?_ (Nat.mul_le_mul_right m (Nat.le_max_right 1 _)))
  rw [Nat.mul_comm]; omega

theorem length_of_mem_chunks {data x : List Byte} (h : x ∈ chunks data) : x.length ≤ maxChunk := by
  simp only [chunks, List.mem_map] at h
  obtain ⟨j, -, rfl⟩ := h
  simp [slice]

theorem chunks_ne_nil (data : List Byte) : chunks data ≠ [] := by
  simp [chunks]

theorem map_payload_map_updateCommand (xs : List (List Byte)) :
    (xs.map updateCommand).map Command.payload = xs := by
  induction xs with
  | nil => rfl
  | cons x xs ih => rw [List.map_cons, List.map_cons, ih, updateCommand_payload]

theorem map_payload_updateCommands (data : List Byte) :
    (updateCommands data).map Command.payload = chunks data :=
  map_payload_map_updateCommand (chunks data)

/-- A run of two lists of commands, the first of which answers. -/
theorem runCommands_append {xs ys : List Command} {s t : State}
    (h : runCommands xs s = .next t) : runCommands (xs ++ ys) s = runCommands ys t := by
  induction xs generalizing s with
  | nil => simp only [runCommands, Host.Outcome.next.injEq] at h; subst h; rfl
  | cons c xs ih =>
    simp only [runCommands, List.cons_append] at h ⊢
    split at h
    · exact ih h
    · cases h
    · cases h

/-- Issuing a command that answers leaves one response, legal word or not (R82). -/
theorem issue_answers {c : Command} {s t : State} (h : issue c s = .next t) :
    ∃ r, t.resp = some r := by
  rcases step_cases h with ⟨hh, -⟩ | ⟨_, hh, -⟩ | ⟨_, _, i, -, -, he⟩ | ⟨_, _, _, -, -, -, rfl⟩
  · simp at hh
  · simp at hh
  · exact exec_answers he
  · exact ⟨_, rfl⟩

@[simp] theorem observe_nil (s : State) : observe [] s = .next (s, ⟨[], [statusPort s]⟩) := rfl

/-- Everything an observed run of one command and more can do: the first command answers `t`, the
rest is observed from `t`, and the boundary before the first command stands ahead. -/
theorem observe_cons_cases {c : Command} {cs : List Command} {s u : State} {seen : Observation} :
    observe (c :: cs) s = .next (u, seen) ↔
      ∃ t rest, issue c s = .next t ∧ observe cs t = .next (u, rest) ∧ seen = rest.after s t := by
  rw [observe]
  cases issue c s with
  | fault f => simp
  | refused r => simp
  | next t =>
    cases ho : observe cs t with
    | fault f => simp [ho]
    | refused r => simp [ho]
    | next p =>
      obtain ⟨v, rest⟩ := p
      simp only [ho, Host.Outcome.next.injEq, Prod.mk.injEq]
      constructor
      · rintro ⟨rfl, rfl⟩
        exact ⟨t, rest, rfl, ho, rfl⟩
      · rintro ⟨_, rest', rfl, hr, rfl⟩
        rw [ho] at hr
        cases hr
        exact ⟨rfl, rfl⟩

end Sys2Proof.Machine
end

