-- ==== Sys2Proof/Laws/PerInstr.lean ====
section
/-! SUPPORT. Statements about every command, one lemma per constructor. `Framing`: the payload
length read from a well-formed command's word is the payload the command takes
(30_encoding.md R72). -/

namespace Sys2Proof.Laws.Framing

def Statement (i : Instr) : Prop := i.wf = true → paylen (encode i) = i.payloadBytes

theorem newMd5 : Statement .newMd5 := fun _ => paylen_commandWord_other (by decide) _ _

theorem newSha1 : Statement .newSha1 := fun _ => paylen_commandWord_other (by decide) _ _

theorem newSha224 : Statement .newSha224 := fun _ => paylen_commandWord_other (by decide) _ _

theorem newSha256 : Statement .newSha256 := fun _ => paylen_commandWord_other (by decide) _ _

theorem newSha384 : Statement .newSha384 := fun _ => paylen_commandWord_other (by decide) _ _

theorem newSha512 : Statement .newSha512 := fun _ => paylen_commandWord_other (by decide) _ _

theorem newUnsupported6 : Statement .newUnsupported6 := fun _ => paylen_commandWord_other (by decide) _ _

theorem newUnsupported7 : Statement .newUnsupported7 := fun _ => paylen_commandWord_other (by decide) _ _

theorem newUnsupported8 : Statement .newUnsupported8 := fun _ => paylen_commandWord_other (by decide) _ _

theorem newUnsupported9 : Statement .newUnsupported9 := fun _ => paylen_commandWord_other (by decide) _ _

theorem newUnsupported10 : Statement .newUnsupported10 := fun _ => paylen_commandWord_other (by decide) _ _

theorem newUnsupported11 : Statement .newUnsupported11 := fun _ => paylen_commandWord_other (by decide) _ _

theorem newUnsupported12 : Statement .newUnsupported12 := fun _ => paylen_commandWord_other (by decide) _ _

theorem newUnsupported13 : Statement .newUnsupported13 := fun _ => paylen_commandWord_other (by decide) _ _

theorem newUnsupported14 : Statement .newUnsupported14 := fun _ => paylen_commandWord_other (by decide) _ _

theorem newUnsupported15 : Statement .newUnsupported15 := fun _ => paylen_commandWord_other (by decide) _ _

theorem update (n : Nat) : Statement (.update n) := fun h => by
  have hn : n < 2 ^ 24 := of_decide_eq_true h
  simp only [encode, Instr.payloadBytes, paylen_commandWord_update, BitVec.toNat_ofNat]
  exact Nat.mod_eq_of_lt hn

theorem finalize : Statement .finalize := fun _ => paylen_commandWord_other (by decide) _ _

theorem formatRaw : Statement .formatRaw := fun _ => paylen_commandWord_other (by decide) _ _

theorem formatHex : Statement .formatHex := fun _ => paylen_commandWord_other (by decide) _ _

end Sys2Proof.Laws.Framing
end

