-- ==== Sys2Proof/Tests/Slice0.lean ====
section
/-! SUPPORT. Tests: expected values from 95_test_vectors.md and the rules cited, and for every
obligation with hypotheses a witness that meets them all, at the boundary values of its clauses. -/

namespace Sys2Proof.Tests

open Sys2Proof.Machine

/-! ### Helpers -/

/-- A state with a context: lifecycle, algorithm, tail, length, and the payload on DIN. -/
def context (st : Lifecycle) (a : Alg) (tail : List Byte) (len : Nat) (din : List Byte) : State :=
  { State.reset with
    st := st, alg := a, h := initialHash a, len := BitVec.ofNat 128 len, din := din,
    buf := tail.zipIdx.map (fun c => (c.2, c.1)), buflen := BitVec.ofNat 8 tail.length }

/-- `n` bytes `0x61`. -/
def letters (n : Nat) : List Byte := List.replicate n 0x61#8

def abc : List Byte := [0x61, 0x62, 0x63]

/-- A Finalized context holding a digest. -/
def finalizedWith (a : Alg) (digest : List Byte) : State :=
  { context .finalized a [] 0 [] with
    digest := writeDigest State.reset.digest digest, dlen := BitVec.ofNat 7 digest.length }

/-- The bytes of the digest S1 of 95_test_vectors.md. -/
def emptyMd5 : List Byte :=
  [0xd4, 0x1d, 0x8c, 0xd9, 0x8f, 0x00, 0xb2, 0x04, 0xe9, 0x80, 0x09, 0x98, 0xec, 0xf8, 0x42, 0x7e]

/-- A state whose next input is a command. -/
def presenting (s : State) (word : BitVec 32) (payload : List Byte) : State :=
  { s with host := [.command ⟨word, payload⟩] }

/-- One view of the state an outcome answers. -/
def seen {α : Type} (view : State → α) (o : Host.Outcome State Fault Refusal) : Option α :=
  match o with
  | .next t => some (view t)
  | .fault _ => none
  | .refused _ => none

/-- The response code, DOUT, and STATUS after. -/
def reply (o : Host.Outcome State Fault Refusal) : Option (Nat × List Byte × Nat) :=
  match o with
  | .next t =>
    match t.resp with
    | some r => some ((statusCode r.status).toNat, r.out, (statusPort t).toNat)
    | none => none
  | .fault _ => none
  | .refused _ => none

def words (t : State) : List Nat := t.h.toList.map BitVec.toNat

/-- What a run shows. -/
def observed (cs : List Command) (s : State) : Option Observation :=
  match observe cs s with
  | .next p => some p.2
  | .fault _ => none
  | .refused _ => none

/-- An outcome that shows a view is a next state with that view. -/
theorem next_of_seen {α : Type} {view : State → α} {o : Host.Outcome State Fault Refusal} {v : α}
    (h : seen view o = some v) : ∃ t, o = .next t ∧ view t = v := by
  cases o with
  | next t => exact ⟨t, rfl, by simpa [seen] using h⟩
  | fault f => simp [seen] at h
  | refused r => simp [seen] at h

/-! ### Well-formedness -/

/-- `2^24` bytes have no command word (R75); `2^24 − 1` have. -/
theorem test_wf_update_bound :
    (Instr.update (2 ^ 24)).wf = false ∧ (Instr.update (2 ^ 24 - 1)).wf = true := by decide

/-! ### Decoding: words written out from R74 to R78, `op arg cnt` -/

theorem test_decode_new :
    decode 0b0001_0000_000000000000000000000000 = .ok .newMd5 ∧
    decode 0b0001_0001_000000000000000000000000 = .ok .newSha1 ∧
    decode 0b0001_0010_000000000000000000000000 = .ok .newSha224 ∧
    decode 0b0001_0011_000000000000000000000000 = .ok .newSha256 ∧
    decode 0b0001_0100_000000000000000000000000 = .ok .newSha384 ∧
    decode 0b0001_0101_000000000000000000000000 = .ok .newSha512 := ⟨rfl, rfl, rfl, rfl, rfl, rfl⟩

theorem test_decode_new_unsupported :
    decode 0b0001_0110_000000000000000000000000 = .ok .newUnsupported6 ∧
    decode 0b0001_0111_000000000000000000000000 = .ok .newUnsupported7 ∧
    decode 0b0001_1000_000000000000000000000000 = .ok .newUnsupported8 ∧
    decode 0b0001_1001_000000000000000000000000 = .ok .newUnsupported9 ∧
    decode 0b0001_1010_000000000000000000000000 = .ok .newUnsupported10 ∧
    decode 0b0001_1011_000000000000000000000000 = .ok .newUnsupported11 ∧
    decode 0b0001_1100_000000000000000000000000 = .ok .newUnsupported12 ∧
    decode 0b0001_1101_000000000000000000000000 = .ok .newUnsupported13 ∧
    decode 0b0001_1110_000000000000000000000000 = .ok .newUnsupported14 ∧
    decode 0b0001_1111_000000000000000000000000 = .ok .newUnsupported15 :=
  ⟨rfl, rfl, rfl, rfl, rfl, rfl, rfl, rfl, rfl, rfl⟩

theorem test_decode_update :
    decode 0b0010_0000_000000000000000000000000 = .ok (.update 0) ∧
    decode 0b0010_0000_000000000000000000000011 = .ok (.update 3) ∧
    decode 0b0010_0000_111111111111111111111111 = .ok (.update 16777215) := ⟨rfl, rfl, rfl⟩

theorem test_decode_finalize_format :
    decode 0b0011_0000_000000000000000000000000 = .ok .finalize ∧
    decode 0b0100_0000_000000000000000000000000 = .ok .formatRaw ∧
    decode 0b0100_0001_000000000000000000000000 = .ok .formatHex := ⟨rfl, rfl, rfl⟩

/-- The illegal words of 95_test_vectors.md 2.1, and how many payload bytes each asks for. -/
theorem test_decode_illegal :
    ([0x10000001, 0x16000001, 0x21000003, 0x2f000000, 0x30000001, 0x31000000, 0x42000000] ++
      [0x41000001, 0x00000000, 0x50000000, 0xf0000000, 0xffffffff] : List (BitVec 32)).map
      (fun w => (decode w matches .ok _, paylen w)) =
    [(false, 0), (false, 0), (false, 3), (false, 0), (false, 0), (false, 0), (false, 0)] ++
      [(false, 0), (false, 0), (false, 0), (false, 0), (false, 0)] := by decide

/-- The host's interface: a placed word is the first to run after reset. -/
theorem test_withFetchWord :
    reply (step (State.reset.withFetchWord 32 0x15000000)) = some (0, [], 0x15) ∧
    reply (step (State.reset.withFetchWord 32 0x20000003)) = some (1, [], 0) ∧
    decodeTableWord 32 0x20000003 = some (.update 3) := by decide +kernel

/-! ### Commands (95_test_vectors.md 2.2 to 2.9 and programs P1 to P6) -/

/-- STATUS after each NEW, from Idle and from a Finalized context. -/
theorem test_new_status :
    [Alg.md5, .sha1, .sha224, .sha256, .sha384, .sha512].map
      (fun a => reply (exec (newInstr a) State.reset)) =
    [some (0, [], 0x01), some (0, [], 0x05), some (0, [], 0x09), some (0, [], 0x0d)] ++
      [some (0, [], 0x11), some (0, [], 0x15)] ∧
    reply (exec .newSha224 (finalizedWith .md5 emptyMd5)) = some (0, [], 0x09) := by decide +kernel

/-- All ten unsupported ids, in Idle and in Active (SHA1, `BUFLEN = 4`). -/
theorem test_new_unsupported :
    (∀ i ∈ unsupportedInstrs, reply (exec i State.reset) = some (3, [], 0)) ∧
    (∀ i ∈ unsupportedInstrs,
      reply (exec i (context .active .sha1 [0x64, 0x61, 0x74, 0x61] 32 [])) =
        some (3, [], 0x0406)) := by decide +kernel

/-- The eager flush: MD5, 63 then 1 byte (2.2, P3 step 3). -/
theorem test_update_flush :
    seen (fun t => (words t, t.buflen.toNat, t.len.toNat))
      (exec (.update 1) (context .active .md5 (letters 63) 504 (letters 1))) =
    some ([0x89d4ff56, 0x125cd962, 0x69cade33, 0x0033e325, 0, 0, 0, 0], 0, 512) := by
  decide +kernel

/-- The length limit (2.9): rows MD5 3 and 2, SHA512 7 and 8. -/
theorem test_update_limit :
    seen (fun t => (t.resp, t.len.toNat, t.buflen.toNat))
      (exec (.update 1) (context .active .md5 (letters 62) 0xfffffffffffffff0 [0])) =
      some (some ⟨.ok, []⟩, 0xfffffffffffffff8, 63) ∧
    seen (fun t => (t.resp, t.len.toNat, t.buflen.toNat))
      (exec (.update 1) (context .active .md5 (letters 63) 0xfffffffffffffff8 [0])) =
      some (some ⟨.lengthOverflow, []⟩, 0xfffffffffffffff8, 63) ∧
    seen (fun t => (t.resp, t.len.toNat, t.buflen.toNat))
      (exec (.update 1) (context .active .sha512 (letters 127) 0xfffffffffffffff8 [0])) =
      some (some ⟨.ok, []⟩, 0x10000000000000000, 0) ∧
    seen (fun t => (t.resp, t.len.toNat, t.buflen.toNat))
      (exec (.update 1)
        (context .active .sha512 (letters 127) 0xfffffffffffffffffffffffffffffff8 [0])) =
      some (some ⟨.lengthOverflow, []⟩, 0xfffffffffffffffffffffffffffffff8, 127) := by
  decide +kernel

/-- SHA384 of "abc" (P6 step 3): truncation to six words. -/
theorem test_finalize_truncates :
    reply (exec .finalize (context .active .sha384 abc 24 [])) = some (0,
      [0xcb, 0x00, 0x75, 0x3f, 0x45, 0xa3, 0x5e, 0x8b, 0xb5, 0xa0, 0x3d, 0x69, 0x9a, 0xc6, 0x50,
        0x07] ++
      [0x27, 0x2c, 0x32, 0xab, 0x0e, 0xde, 0xd1, 0x63, 0x1a, 0x8b, 0x60, 0x5a, 0x43, 0xff, 0x5b,
        0xed] ++
      [0x80, 0x86, 0x07, 0x2b, 0xa1, 0xe7, 0xcc, 0x23, 0x58, 0xba, 0xec, 0xa1, 0x34, 0xc8, 0x25,
        0xa7],
      0x00300013) := by decide +kernel

/-- MD5 of 'a'×56 (2.7): the padding spills into a second block. -/
theorem test_finalize_two_blocks :
    reply (exec .finalize (context .active .md5 (letters 56) 448 [])) = some (0,
      [0x3b, 0x0c, 0x8a, 0xc7, 0x03, 0xf8, 0x28, 0xb0, 0x4c, 0x6c, 0x19, 0x70, 0x06, 0xd1, 0x72,
        0x18],
      0x00100003) := by decide +kernel

/-- Both modes on the digest S1 (2.8). -/
theorem test_format_modes :
    reply (exec .formatRaw (finalizedWith .md5 emptyMd5)) = some (0, emptyMd5, 0x00100003) ∧
    reply (exec .formatHex (finalizedWith .md5 emptyMd5)) = some (0,
      [0x64, 0x34, 0x31, 0x64, 0x38, 0x63, 0x64, 0x39, 0x38, 0x66, 0x30, 0x30, 0x62, 0x32, 0x30,
        0x34] ++
      [0x65, 0x39, 0x38, 0x30, 0x30, 0x39, 0x39, 0x38, 0x65, 0x63, 0x66, 0x38, 0x34, 0x32, 0x37,
        0x65],
      0x00100003) := by decide +kernel

/-- InvalidState (2.9): FORMAT in Fresh, UPDATE and FINALIZE in Idle and Finalized. -/
theorem test_invalid_state :
    reply (exec .formatRaw (context .fresh .sha256 [] 0 [])) = some (1, [], 0x0d) ∧
    reply (exec .formatHex State.reset) = some (1, [], 0) ∧
    reply (exec (.update 3) (context .idle .md5 [] 0 abc)) = some (1, [], 0) ∧
    reply (exec (.update 0) (finalizedWith .md5 emptyMd5)) = some (1, [], 0x00100003) ∧
    reply (exec .finalize State.reset) = some (1, [], 0) ∧
    reply (exec .finalize (finalizedWith .md5 emptyMd5)) = some (1, [], 0x00100003) := by
  decide +kernel

/-- An illegal word with a payload (P4 step 9), and IllegalCommand before UnsupportedAlgorithm
(P4 step 7). -/
theorem test_illegal :
    reply (step (presenting (context .fresh .sha1 [] 0 []) 0x21000003 abc)) = some (4, [], 5) ∧
    reply (step (presenting State.reset 0x16000001 [])) = some (4, [], 0) := by decide +kernel

/-- Program P1 from reset, FORMAT raw in place of hex: STATUS at its five boundaries, the start
first; and an empty run, which shows the start boundary alone. -/
theorem test_observe :
    observed [commandOf .newMd5, updateCommand [], commandOf .finalize, commandOf .formatRaw]
        State.reset =
      some ⟨[⟨.ok, []⟩, ⟨.ok, []⟩, ⟨.ok, emptyMd5⟩, ⟨.ok, emptyMd5⟩],
        [0x00000000, 0x00000001, 0x00000002, 0x00100003, 0x00100003]⟩ ∧
    observed [] (finalizedWith .md5 emptyMd5) = some ⟨[], [0x00100003]⟩ := by decide +kernel

/-- The compression functions on a block of ones from registers of ones (2.3 to 2.6). -/
theorem test_compress_all_ones :
    (compress .md5 (Vector.replicate 8 0xffffffff) (List.replicate 64 0xff)).toList.take 4 =
      [0x6cba9129, 0x29ffd12a, 0x8b9bb7d3, 0xa9a0a3c1] ∧
    (compress .sha1 (Vector.replicate 8 0xffffffff) (List.replicate 64 0xff)).toList.take 5 =
      [0x3f48159b, 0x2dce51fa, 0x8a1e930a, 0x02083b68, 0xef70d6e8] ∧
    (compress .sha256 (Vector.replicate 8 0xffffffff) (List.replicate 64 0xff)).toList.take 3 =
      [0x0598127a, 0xaf11706e, 0x77401fff] ∧
    (compress .sha512 (Vector.replicate 8 0xffffffffffffffff) (List.replicate 128 0xff)).toList.take
      2 = [0x9b0f121696e951ee, 0x41d0b467b741e768] := by decide +kernel

/-! ### Witnesses: each obligation's hypotheses are met, at the boundaries of its clauses -/

theorem witness_DecodeOfEncodeIsTheCommand :
    (Instr.update 16777215).wf = true ∧ (Instr.update 0).wf = true ∧ Instr.formatHex.wf = true := by
  decide

theorem witness_EncodeOfDecodeIsTheWord :
    decode 0x20ffffff = .ok (.update 16777215) ∧ decode 0x1f000000 = .ok .newUnsupported15 :=
  ⟨rfl, rfl⟩

/-- The clauses of `IllegalFields` at their boundaries. -/
theorem test_illegal_boundaries :
    (IllegalFields 0x0fffffff ∧ IllegalFields 0x50000000 ∧ IllegalFields 0x10000001 ∧
      IllegalFields 0x21000003) ∧
    (IllegalFields 0x31000000 ∧ IllegalFields 0x30000001 ∧ IllegalFields 0x42000000 ∧
      IllegalFields 0x41000001) := ⟨by decide, by decide⟩

/-- Their legal neighbours. -/
theorem test_legal_boundaries :
    ¬ IllegalFields 0x1f000000 ∧ ¬ IllegalFields 0x20ffffff ∧ ¬ IllegalFields 0x30000000 ∧
      ¬ IllegalFields 0x41000000 := by decide

theorem witness_IllegalWordsRaiseIllegalCommand :
    (presenting (context .fresh .sha1 [] 0 []) 0x21000003 abc).host =
        .command ⟨0x21000003, abc⟩ :: [] ∧
      IllegalFields 0x21000003 ∧ abc.length = paylen 0x21000003 :=
  ⟨rfl, by decide, by decide⟩

theorem witness_StepRunsTheDecodedCommand :
    (presenting State.reset 0x20000003 abc).host = .command ⟨0x20000003, abc⟩ :: [] ∧
      decode 0x20000003 = .ok (.update 3) := ⟨rfl, rfl⟩

theorem witness_StepWithNoInputChangesNothing : (finalizedWith .md5 emptyMd5).host = [] := by decide

theorem witness_ResetInputReturnsToIdle :
    ({ finalizedWith .md5 emptyMd5 with host := [.reset] } : State).host = .reset :: [] := by decide

theorem witness_MispairedPayloadIsRefused :
    (presenting State.reset 0x20000002 abc).host = .command ⟨0x20000002, abc⟩ :: [] ∧
      abc.length ≠ paylen 0x20000002 ∧
      (∃ r, step (presenting State.reset 0x20000002 abc) = .refused r) :=
  ⟨rfl, by decide, _, rfl⟩

theorem witness_StatusPortHasTheStatedLayout :
    let s := context .active .sha1 abc 24 []
    let t := context .active .sha1 [1, 2, 3] 536 []
    s ≠ t ∧ s.st = t.st ∧ s.alg = t.alg ∧ s.buflen = t.buflen ∧ s.dlen = t.dlen := by
  decide +kernel

theorem witness_NewCreatesAFreshContext : (finalizedWith .md5 emptyMd5).din = [] := by decide

theorem witness_NewLoadsTheInitialVector : (context .active .sha1 abc 24 []).din = [] := by decide

theorem witness_UnsupportedIdsRaiseUnsupportedAlgorithm :
    Instr.newUnsupported6 ∈ unsupportedInstrs ∧ Instr.newUnsupported15 ∈ unsupportedInstrs ∧
      (finalizedWith .md5 emptyMd5).din = [] ∧ 6 ≤ (6 : BitVec 4).toNat ∧
      6 ≤ (15 : BitVec 4).toNat := by decide

theorem witness_NewForgetsTheOldContext :
    let s := context .active .sha1 abc 24 []
    let t := finalizedWith .md5 emptyMd5
    s ≠ t ∧ s.host = t.host ∧ (∃ s', exec (newInstr .sha1) s = .next s') ∧
      (∃ t', exec (newInstr .sha1) t = .next t') :=
  ⟨by decide +kernel, by decide, ⟨_, rfl⟩, ⟨_, rfl⟩⟩

/-- One byte short of the block size and of the length limit, an empty payload at the limit, and a
64-bit algorithm. -/
theorem witness_UpdateFeedsTheBlocks :
    (∀ s ∈ [context .active .md5 (letters 62) (2 ^ 64 - 16) [0],
        context .active .md5 (letters 63) (2 ^ 64 - 8) [],
        context .fresh .sha256 [] 0 abc,
        context .active .sha512 (letters 127) (2 ^ 64 - 8) [0]],
      s.isOpen = true ∧ s.len.toNat + 8 * s.din.length ≤ maxBits s.alg ∧
        s.buflen.toNat < blockBytes s.alg ∧ Memory.wf s.buf) := by decide +kernel

/-- A payload of two bytes that wraps past the end of the block. -/
theorem witness_UpdateStoresOnlyThePayload :
    let s := context .active .md5 (letters 63) 504 [1, 2]
    s.buflen.toNat < blockBytes s.alg ∧ Memory.wf s.buf ∧
      ∃ t, exec (.update 2) s = .next t ∧ t.resp = some ⟨.ok, []⟩ :=
  ⟨by decide +kernel, by decide +kernel, next_of_seen (view := State.resp) (by decide +kernel)⟩

theorem witness_UpdatePastTheLimitWritesNothing :
    (∀ s ∈ [context .active .md5 (letters 63) (2 ^ 64 - 8) [0],
        context .active .sha512 (letters 127) (2 ^ 128 - 8) [0]],
      s.isOpen = true ∧ s.din.length = 1 ∧ maxBits s.alg < s.len.toNat + 8 * 1) := by
  decide +kernel

theorem witness_UpdateOfNothingOnlyActivates :
    let s := context .active .md5 (letters 63) (2 ^ 64 - 8) []
    (s.isOpen = true ∧ s.din = [] ∧ s.len.toNat ≤ maxBits s.alg) ∧
      (∃ t, exec (.update 0) { s with st := .fresh } = .next t) ∧
      (∃ t, exec .newSha1 { s with st := .fresh } = .next t) :=
  ⟨by decide +kernel, ⟨_, rfl⟩, ⟨_, rfl⟩⟩

/-- "abc" cut with an empty chunk and a block boundary inside, up to the limit. -/
theorem witness_ChunkingDoesNotMatter :
    let s := context .active .md5 (letters 62) (2 ^ 64 - 32) []
    let xs : List (List Byte) := [[0x61], [], [0x62, 0x63]]
    let ys : List (List Byte) := [abc]
    s.isOpen = true ∧ s.buflen.toNat < blockBytes s.alg ∧ xs ≠ [] ∧ ys ≠ [] ∧
      xs.flatten = ys.flatten ∧ (∀ x ∈ xs, x.length < 2 ^ Config.cntw) ∧
      (∀ y ∈ ys, y.length < 2 ^ Config.cntw) ∧
      s.len.toNat + 8 * xs.flatten.length ≤ maxBits s.alg := by decide +kernel

/-- The context of SHA1 after "abc" holds "abc". -/
theorem abc_held (din : List Byte) : Holds (context .active .sha1 abc 24 din) abc := by
  have h : Holds (context .active .sha1 abc 24 []) abc := by constructor <;> decide +kernel
  exact ⟨h.is_open, h.len_eq, h.hash_eq, h.buflen_eq, h.tail_eq⟩

theorem witness_ContextHoldsTheAcceptedMessage :
    (∃ t, exec (newInstr .sha1) State.reset = .next t) ∧
      (let s := context .active .sha1 abc 24 [0x64]
       Holds s abc ∧ Memory.wf s.buf ∧
         ∃ t, exec (.update 1) s = .next t ∧ t.resp = some ⟨.ok, []⟩) :=
  ⟨⟨_, rfl⟩, abc_held _, by decide, next_of_seen (view := State.resp) (by decide +kernel)⟩

theorem witness_PaddingZerosAreTheLeast :
    (∀ n ∈ [0, 55, 56, 63], n < blockBytes .md5 ∧ blockBytes .md5 = 64) ∧
      (∀ n ∈ [0, 111, 112, 127], n < blockBytes .sha512 ∧ blockBytes .sha512 = 128) ∧
      (56 + 1 + 63) % blockBytes .md5 = blockBytes .md5 - lengthFieldBytes .md5 := by decide

theorem witness_PaddingMakesOneOrTwoBlocks :
    (∀ n ∈ [0, 55], (letters n).length ≤ blockBytes .sha1 - lengthFieldBytes .sha1 - 1 ∧
      (letters n).length < blockBytes .sha1) ∧
    (∀ n ∈ [112, 127], blockBytes .sha384 - lengthFieldBytes .sha384 ≤ (letters n).length ∧
      (letters n).length < blockBytes .sha384) := by decide

theorem witness_PaddingFsmFeedsThePaddingString :
    ∀ n ∈ [0, 55, 56, 63],
      let s := context .active .md5 (letters n) (8 * n) []
      s.buflen.toNat < blockBytes s.alg := by decide +kernel

theorem witness_LengthFieldCarriesTheLength :
    0x91a2b3c420 ≤ maxBits .md5 ∧ 2 ^ 64 - 1 ≤ maxBits .sha1 ∧ 2 ^ 128 - 1 ≤ maxBits .sha512 := by
  decide

theorem witness_ByteConversionsAreInverse :
    0 < 256 ^ 0 ∧ 255 < 256 ^ 1 ∧ (letters 4).length = 4 ∧ (letters 8).length = 8 := by decide

theorem witness_WordOperatorsAreModular : (0 < 1 ∧ 1 < 32) ∧ (0 < 63 ∧ 63 < 64) := by decide

theorem witness_Sha1ScheduleFollowsTheRecurrence :
    0 < 16 ∧ 15 < 16 ∧ (16 ≤ 16 ∧ 16 < 80) ∧ (16 ≤ 79 ∧ 79 < 80) := by decide

theorem witness_Sha256ScheduleFollowsTheRecurrence :
    0 < 16 ∧ 15 < 16 ∧ (16 ≤ 16 ∧ 16 < 64) ∧ (16 ≤ 63 ∧ 63 < 64) := by decide

theorem witness_Sha512ScheduleFollowsTheRecurrence :
    0 < 16 ∧ 15 < 16 ∧ (16 ≤ 16 ∧ 16 < 80) ∧ (16 ≤ 79 ∧ 79 < 80) := by decide

theorem witness_CompressionWritesOnlyItsHashWords :
    hashWords .md5 ≤ (4 : Fin Config.nhmax).val ∧ (3 : Fin Config.nhmax).val < hashWords .md5 ∧
      (7 : Fin Config.nhmax).val < hashWords .sha256 ∧ wordBits .md5 = 32 ∧
      wordBits .sha256 = 32 := by decide

theorem witness_FinalizePadsLatchesAndAnswers :
    (∀ s ∈ [context .fresh .sha256 [] 0 [], context .active .md5 (letters 55) 440 [],
        context .active .md5 (letters 56) 448 [], context .active .sha512 (letters 127) 1016 []],
      s.isOpen = true ∧ s.din = [] ∧ s.buflen.toNat < blockBytes s.alg ∧ Memory.wf s.buf) := by
  decide +kernel

theorem witness_FinalizeAnswersTheMessageDigest :
    let s := context .active .sha1 abc 24 []
    Holds s abc ∧ Memory.wf s.buf ∧ s.din = [] := ⟨abc_held _, by decide, by decide⟩

theorem witness_SerialisationAndTruncation :
    (0 : Fin Config.nhmax).val < hashWords .md5 ∧ (7 : Fin Config.nhmax).val < hashWords .sha384 ∧
      Alg.md5 ≠ .sha224 ∧ Alg.md5 ≠ .sha384 := by decide

theorem witness_FormatAnswersTheHeldDigest :
    (finalizedWith .md5 emptyMd5).st = .finalized ∧ (finalizedWith .md5 emptyMd5).din = [] := by
  decide

theorem witness_HexRenderingOfEachByte : 0 < emptyMd5.length ∧ 15 < emptyMd5.length := by decide

theorem witness_HexRoundTrips :
    unhex [0x37, 0x65, 0x39, 0x66] = some [0x7e, 0x9f] ∧ unhex [] = some [] := by decide

/-- A command for every status, in a state that gives it. -/
theorem witness_TheFirstApplicableErrorIsReported :
    (∀ c ∈ [(presenting State.reset 0x20000003 abc, 0x20000003#32, abc),
        (presenting (finalizedWith .md5 emptyMd5) 0x21000000 [], 0x21000000#32, []),
        (presenting State.reset 0x16000000 [], 0x16000000#32, []),
        (presenting (context .active .md5 (letters 63) (2 ^ 64 - 8) []) 0x20000001 [0],
          0x20000001#32, [0]),
        (presenting (context .fresh .sha1 [] 0 []) 0x30000000 [], 0x30000000#32, [])],
      c.1.host = .command ⟨c.2.1, c.2.2⟩ :: [] ∧ c.2.2.length = paylen c.2.1 ∧
        c.1.buflen.toNat < blockBytes c.1.alg) := by decide +kernel

theorem witness_ErrorsWriteNothing :
    (∃ t, exec .finalize (finalizedWith .md5 emptyMd5) = .next t ∧
      t.resp = some ⟨.invalidState, []⟩) ∧
    (presenting State.reset 0 []).host = .command ⟨0, []⟩ :: [] ∧
    (∃ t, step (presenting State.reset 0 []) = .next t ∧ t.resp = some ⟨.illegalCommand, []⟩) ∧
    Status.invalidState ≠ .ok ∧ Status.illegalCommand ≠ .ok :=
  ⟨next_of_seen (view := State.resp) (by decide +kernel), rfl,
    next_of_seen (view := State.resp) (by decide +kernel), by decide, by decide⟩

/-- Every kind of transition happens: an error, NEW, UPDATE, FINALIZE, FORMAT. -/
theorem witness_LifecycleTransitions :
    (∃ t, exec .formatRaw State.reset = .next t ∧ t.resp = some ⟨.invalidState, []⟩) ∧
    (∃ t, exec .newMd5 State.reset = .next t ∧ t.resp = some ⟨.ok, []⟩) ∧
    (∃ t, exec (.update 3) (context .fresh .md5 [] 0 abc) = .next t ∧ t.resp = some ⟨.ok, []⟩) ∧
    (∃ t, exec .finalize (context .fresh .md5 [] 0 []) = .next t ∧
      t.resp = some ⟨.ok, emptyMd5⟩) ∧
    (∃ t, exec .formatRaw (finalizedWith .md5 emptyMd5) = .next t ∧
      t.resp = some ⟨.ok, emptyMd5⟩) :=
  ⟨next_of_seen (by decide +kernel), next_of_seen (by decide +kernel),
    next_of_seen (by decide +kernel), next_of_seen (by decide +kernel),
    next_of_seen (by decide +kernel)⟩

/-- Commands that change each piece of state named in the statement. -/
theorem witness_StateIsWrittenOnlyByItsCommands :
    (∃ t, exec .newSha1 (finalizedWith .md5 emptyMd5) = .next t ∧
      (t.alg, t.st, t.dlen.toNat) = (.sha1, .fresh, 0)) ∧
    (∃ t, exec (.update 1) (context .fresh .md5 [] 0 [7]) = .next t ∧
      (t.bufByte 0, t.buflen.toNat, t.len.toNat) = (7, 1, 8)) ∧
    (∃ t, exec .finalize (context .fresh .md5 [] 0 []) = .next t ∧
      (words t, t.heldDigest) =
        ([0xd98c1dd4, 0x04b2008f, 0x980980e9, 0x7e42f8ec, 0, 0, 0, 0], emptyMd5)) :=
  ⟨next_of_seen (by decide +kernel), next_of_seen (by decide +kernel),
    next_of_seen (by decide +kernel)⟩

/-- The invariant says nothing about the inputs still to come. -/
theorem inv_host {s : State} (h : Inv s) (host : List HostInput) : Inv { s with host := host } :=
  ⟨h.buflen_eq, h.buflen_lt, h.len_mod, h.len_le, h.dlen_iff, h.dlen_eq, h.upper_zero,
    h.unused_zero, h.fresh_init, h.buf_wf, h.din_nil⟩

theorem finalized_inv : Inv (finalizedWith .md5 emptyMd5) := by constructor <;> decide +kernel

theorem fresh_inv : Inv (context .fresh .sha1 [] 0 []) := by constructor <;> decide +kernel

theorem active_inv : Inv (context .active .sha1 abc 24 []) := by constructor <;> decide +kernel

theorem witness_ResponsesHaveTheStatedForm :
    (Inv { finalizedWith .md5 emptyMd5 with din := [] } ∧
      (∃ t, exec .formatHex (finalizedWith .md5 emptyMd5) = .next t) ∧
      ∃ t, exec .formatRaw (finalizedWith .md5 emptyMd5) = .next t) ∧
    (Inv { context .fresh .sha1 [] 0 [] with din := [] } ∧
      ∃ t, exec .finalize (context .fresh .sha1 [] 0 []) = .next t ∧ t.dlen.toNat = 20) :=
  ⟨⟨finalized_inv, ⟨_, rfl⟩, ⟨_, rfl⟩⟩, fresh_inv, next_of_seen (by decide +kernel)⟩

theorem witness_StepKeepsTheInvariant :
    Inv (presenting (context .active .sha1 abc 24 []) 0x20000001 [0x64]) ∧
      ∃ t, step (presenting (context .active .sha1 abc 24 []) 0x20000001 [0x64]) = .next t ∧
        t.len.toNat = 32 :=
  ⟨inv_host active_inv _, next_of_seen (by decide +kernel)⟩

theorem witness_CommandsAreAlwaysAnswered :
    let s := presenting (finalizedWith .md5 emptyMd5) 0x41000000 []
    Inv s ∧ s.host = .command ⟨0x41000000, []⟩ :: [] ∧
      ([] : List Byte).length = paylen 0x41000000 :=
  ⟨inv_host finalized_inv _, rfl, by decide⟩

/-- Two states that look alike and differ in a stale byte of `BUF`, in `H[7]` of an MD5 context and
in `DIGEST`. -/
theorem witness_StaleContentsNeverShow :
    let s := presenting (context .active .md5 abc 24 []) 0x20000001 [0x64]
    let t : State := { s with
      buf := s.buf ++ [(100, 9)], h := s.h.set 7 5, digest := Vector.replicate 64 3 }
    s ≠ t ∧ Memory.wf s.buf ∧ Memory.wf t.buf ∧ LookAlike s t ∧
      ∃ s', step s = .next s' ∧ s'.len.toNat = 32 := by
  refine ⟨by decide +kernel, by decide +kernel, by decide +kernel, ?_,
    next_of_seen (by decide +kernel)⟩
  constructor <;> decide +kernel

theorem witness_AnyChunkingGivesTheMessageDigest :
    Memory.wf (context .active .md5 abc 24 []).buf ∧
      (∀ x ∈ [[0x61], [], [0x62, 0x63]], (x : List Byte).length < 2 ^ Config.cntw) ∧
      8 * ([[0x61], [], [0x62, 0x63]] : List (List Byte)).flatten.length ≤ maxBits .sha256 := by
  decide

theorem witness_OneShotDigestAnswersTheMessageDigest :
    Memory.wf (context .active .md5 abc 24 []).buf ∧ 8 * abc.length ≤ maxBits .md5 := by decide

theorem witness_UnknownNamesAreEncodedAsIdFifteen :
    "SHA-256" ∉ ["MD5", "SHA1", "SHA224", "SHA256", "SHA384", "SHA512"] := by decide

theorem witness_RunShowsEveryBoundary :
    ∃ u seen, observe [commandOf .newSha1, updateCommand abc] State.reset = .next (u, seen) ∧
      0 < 2 ∧ 2 ≤ [commandOf .newSha1, updateCommand abc].length := ⟨_, _, rfl, by decide, by decide⟩

/-- The first and the last unsupported id, and data one byte past the limit of MD5. -/
theorem witness_OneShotDigestStopsAtTheFirstError :
    Instr.newUnsupported6 ∈ unsupportedInstrs ∧ Instr.newUnsupported15 ∈ unsupportedInstrs ∧
      maxBits .md5 < 8 * (List.replicate (2 ^ 61) 0x00#8).length :=
  ⟨by decide, by decide, by rw [List.length_replicate]; decide⟩

end Sys2Proof.Tests
end

/-! The family 00_scope.md: the word operators (R12), the byte conversions (R13), and the engine as
a machine that answers every command (R15). -/

namespace Sys2Proof

/-- Every NEW takes no payload, whatever its id. -/
theorem payloadBytes_decodeNew (arg : BitVec 4) : (decodeNew arg).payloadBytes = 0 := by
  unfold decodeNew
  split <;> rfl

/-- The payload a decoded command takes is the payload its word announces (R72). -/
theorem payloadBytes_of_decode {w : BitVec 32} {i : Instr} (h : decode w = .ok i) :
    i.payloadBytes = paylen w := by
  unfold decode at h
  split_ifs at h with hNew _ hUpdate _ hFinalize _ hFormat _ _ <;> cases h
  · simp [paylen, hNew, payloadBytes_decodeNew]
  · simp [paylen, hUpdate, Instr.payloadBytes]
  · simp [paylen, hFinalize, Instr.payloadBytes]
  · simp [paylen, hFormat, Instr.payloadBytes]
  · simp [paylen, hFormat, Instr.payloadBytes]

end Sys2Proof

namespace Sys2Proof.Machine

/-! ### The word operators (R12) -/

theorem toNat_shr {w : Nat} (a : BitVec w) (n : Nat) : (shr a n).toNat = a.toNat / 2 ^ n := by
  rw [shr, BitVec.toNat_ushiftRight, Nat.shiftRight_eq_div_pow]

theorem toNat_rotl {w : Nat} (a : BitVec w) (n : Nat) :
    (rotl a n).toNat = (a.toNat * 2 ^ n % 2 ^ w) ||| (a.toNat / 2 ^ (w - n)) := by
  rw [rotl, BitVec.toNat_or, BitVec.toNat_shiftLeft, BitVec.toNat_ushiftRight, Nat.shiftLeft_eq,
    Nat.shiftRight_eq_div_pow]

/-- Settles O28: the model's shifts and rotations by their values, the rest by the values of the
bit-vector operators. -/
theorem wordOperatorsAreModular : Obligations.WordOperatorsAreModular := by
  intro w n a b _ _
  exact ⟨BitVec.toNat_add a b, BitVec.toNat_and a b, BitVec.toNat_or a b, BitVec.toNat_xor a b,
    BitVec.toNat_not, toNat_shr a n, toNat_rotl a n, rfl⟩

/-! ### The byte conversions (R13) -/

@[simp] theorem le_nil : le [] = 0 := rfl

@[simp] theorem le_cons (b : Byte) (s : List Byte) : le (b :: s) = b.toNat + 256 * le s := rfl

@[simp] theorem toLe_zero (v : Nat) : toLe v 0 = [] := rfl

/-- `to_le` puts the lowest byte first and goes on with the rest of the value. -/
theorem toLe_succ (v k : Nat) : toLe v (k + 1) = BitVec.ofNat 8 v :: toLe (v / 256) k := by
  simp [toLe, List.range_succ_eq_map, Nat.pow_succ', Nat.div_div_eq_div_mul]

/-- The two byte orders are mirror images. -/
theorem be_eq_le_reverse (s : List Byte) : be s = le s.reverse := by
  have hfoldr (t : List Byte) : t.foldr (fun b v => 256 * v + b.toNat) 0 = le t := by
    induction t with
    | nil => rfl
    | cons b t ih => rw [List.foldr_cons, ih, le_cons, Nat.add_comm]
  rw [be, ← List.foldr_reverse, hfoldr]

theorem toBe_eq_reverse_toLe (v k : Nat) : toBe v k = (toLe v k).reverse := by
  refine List.ext_getElem (by simp) fun i _ _ => ?_
  simp [toBe, toLe, List.getElem_reverse]

theorem le_lt (s : List Byte) : le s < 256 ^ s.length := by
  induction s with
  | nil => simp
  | cons b s ih =>
    rw [le_cons, List.length_cons, Nat.pow_succ']
    have := b.isLt
    omega

theorem be_lt (s : List Byte) : be s < 256 ^ s.length := by
  simpa [be_eq_le_reverse] using le_lt s.reverse

/-- `k` bytes keep the value modulo `256^k`. -/
theorem le_toLe (v k : Nat) : le (toLe v k) = v % 256 ^ k := by
  induction k generalizing v with
  | zero => simp [Nat.mod_one]
  | succ k ih => simp [toLe_succ, ih, Nat.pow_succ', Nat.mod_mul]

theorem be_toBe (v k : Nat) : be (toBe v k) = v % 256 ^ k := by
  simp [be_eq_le_reverse, toBe_eq_reverse_toLe, le_toLe]

theorem toLe_le (s : List Byte) : toLe (le s) s.length = s := by
  induction s with
  | nil => rfl
  | cons b s ih =>
    have hlow : BitVec.ofNat 8 (le (b :: s)) = b := by
      apply BitVec.eq_of_toNat_eq
      have := b.isLt
      simp
      omega
    have hrest : le (b :: s) / 256 = le s := by
      have := b.isLt
      rw [le_cons]
      omega
    rw [List.length_cons, toLe_succ, hlow, hrest, ih]

theorem toBe_be (s : List Byte) : toBe (be s) s.length = s := by
  simpa [be_eq_le_reverse, toBe_eq_reverse_toLe] using congrArg List.reverse (toLe_le s.reverse)

theorem le_eq_sum (s : List Byte) :
    le s = ∑ i ∈ Finset.range s.length, (s.getD i 0).toNat * 256 ^ i := by
  induction s with
  | nil => rfl
  | cons b s ih =>
    rw [le_cons, ih, List.length_cons, Finset.sum_range_succ', Finset.mul_sum, Nat.add_comm]
    simp [Nat.pow_succ', Nat.mul_left_comm]

theorem be_eq_sum (s : List Byte) :
    be s = ∑ i ∈ Finset.range s.length, (s.getD i 0).toNat * 256 ^ (s.length - 1 - i) := by
  rw [be_eq_le_reverse, le_eq_sum, List.length_reverse, ← Finset.sum_range_reflect]
  refine Finset.sum_congr rfl fun i hi => ?_
  have hi := Finset.mem_range.mp hi
  have hget : s.reverse.getD (s.length - 1 - i) 0 = s.getD i 0 := by
    rw [List.getD_reverse _ (by omega)]
    congr 1
    omega
  rw [hget]

theorem toNat_le32 {s : List Byte} (h : s.length = 4) : (le32 s).toNat = le s :=
  Nat.mod_eq_of_lt (h ▸ le_lt s : le s < 256 ^ 4)

theorem toNat_be32 {s : List Byte} (h : s.length = 4) : (be32 s).toNat = be s :=
  Nat.mod_eq_of_lt (h ▸ be_lt s : be s < 256 ^ 4)

theorem toNat_be64 {s : List Byte} (h : s.length = 8) : (be64 s).toNat = be s :=
  Nat.mod_eq_of_lt (h ▸ be_lt s : be s < 256 ^ 8)

/-- Settles O27: the little-endian facts by induction on the bytes, the big-endian ones as their
mirror images. -/
theorem byteConversionsAreInverse : Obligations.ByteConversionsAreInverse := by
  refine ⟨fun s => ⟨le_eq_sum s, be_eq_sum s⟩, fun v k hv => ?_, fun s => ⟨toLe_le s, toBe_be s⟩,
    fun s => ⟨fun h => ⟨toNat_le32 h, toNat_be32 h⟩, toNat_be64⟩⟩
  rw [le_toLe, be_toBe, Nat.mod_eq_of_lt hv]
  exact ⟨rfl, rfl⟩

/-! ### The step of a presented command (R15) -/

section
variable {s : State} {c : Command} {rest : List HostInput}

theorem step_of_decode {i : Instr} (hh : s.host = .command c :: rest)
    (hi : decode c.word = .ok i) : step s = exec i (s.present c.payload rest) := by
  simp [step, hh, hi]

theorem step_of_illegal {r : IllegalWord} (hh : s.host = .command c :: rest)
    (hr : decode c.word = .error r) :
    step s = execIllegal (paylen c.word) (s.present c.payload rest) := by
  simp [step, hh, hr]

end

/-- Settles O6: the arm of the step for a word that decodes. -/
theorem stepRunsTheDecodedCommand : Obligations.StepRunsTheDecodedCommand :=
  fun _ _ _ _ hh hi => step_of_decode hh hi

/-! ### Which commands are answered (R15, R37, R82) -/

theorem isOpen_or_idle_or_finalized (s : State) :
    s.isOpen = true ∨ s.st = .idle ∨ s.st = .finalized := by
  cases hst : s.st <;> simp [State.isOpen, hst]

/-- Below the block size UPDATE answers whatever its payload: it refuses, overflows or feeds. -/
theorem execUpdate_succeeds {s : State} (hb : s.buflen.toNat < blockBytes s.alg) :
    ∃ t, execUpdate s.din.length s = .next t := by
  rcases isOpen_or_idle_or_finalized s with ho | hc
  · rcases Nat.lt_or_ge (maxBits s.alg) (s.len.toNat + 8 * s.din.length) with hl | hl
    · exact ⟨_, execUpdate_overflows ho hl⟩
    · obtain ⟨u, hu, -⟩ := feed_succeeds s.din hb
      exact ⟨_, execUpdate_feeds ho hl hu⟩
  · exact ⟨_, execUpdate_refused hc⟩

/-- Below the block size FINALIZE answers: it refuses or pads. -/
theorem execFinalize_succeeds {s : State} (hd : s.din = [])
    (hb : s.buflen.toNat < blockBytes s.alg) : ∃ t, execFinalize s = .next t := by
  rcases isOpen_or_idle_or_finalized s with ho | hc
  · obtain ⟨u, hu, -⟩ := padAndCompress_succeeds hb
    exact ⟨_, execFinalize_pads hd ho hu⟩
  · exact ⟨_, execFinalize_refused hd hc⟩

theorem formatDigest_succeeds (m : Mode) {s : State} (hd : s.din = []) :
    ∃ t, formatDigest m s = .next t := by
  by_cases hf : s.st = .finalized
  · exact ⟨_, formatDigest_renders m hd hf⟩
  · exact ⟨_, formatDigest_refused m hd hf⟩

/-- Below the block size every command with exactly its payload answers. -/
theorem exec_succeeds {i : Instr} {s : State} (hb : s.buflen.toNat < blockBytes s.alg)
    (hn : s.din.length = i.payloadBytes) : ∃ t, exec i s = .next t := by
  have hd (h : s.din.length = 0) : s.din = [] := List.eq_nil_of_length_eq_zero h
  cases i with
  | newMd5 => exact ⟨_, newSupported_answers .md5 (hd hn)⟩
  | newSha1 => exact ⟨_, newSupported_answers .sha1 (hd hn)⟩
  | newSha224 => exact ⟨_, newSupported_answers .sha224 (hd hn)⟩
  | newSha256 => exact ⟨_, newSupported_answers .sha256 (hd hn)⟩
  | newSha384 => exact ⟨_, newSupported_answers .sha384 (hd hn)⟩
  | newSha512 => exact ⟨_, newSupported_answers .sha512 (hd hn)⟩
  | update n =>
    obtain rfl : s.din.length = n := hn
    exact execUpdate_succeeds hb
  | finalize => exact execFinalize_succeeds (hd hn) hb
  | formatRaw => exact formatDigest_succeeds .raw (hd hn)
  | formatHex => exact formatDigest_succeeds .hex (hd hn)
  | _ => exact ⟨_, newUnsupported_answers (hd hn)⟩

/-- No command presents or withdraws an input of the host. -/
theorem exec_host {i : Instr} {s t : State} (h : exec i s = .next t) : t.host = s.host := by
  rcases (exec_cases h).2 with ⟨k, -, rfl⟩ | ⟨a, -, rfl⟩ | ⟨n, u, -, -, -, hu, rfl⟩ |
    ⟨u, -, -, hu, rfl⟩ | ⟨m, -, -, rfl⟩
  · rfl
  · rfl
  · exact (feed_frame hu).host
  · exact (feed_frame (padAndCompress_cases hu).2.1).host
  · rfl

/-- Every command first checks the length of its payload (R266). -/
theorem exec_is_framed (i : Instr) :
    ∃ body, ∀ s, exec i s = framed i.payloadBytes body s := by
  cases i <;> exact ⟨_, fun _ => rfl⟩

theorem framed_refused {n : Nat} {body : State → Host.Outcome State Fault Refusal} {s : State}
    (h : s.din.length ≠ n) : framed n body s = .refused .payloadLength := if_neg h

section
variable {s : State} {c : Command} {rest : List HostInput}

/-- A pair with a payload of another length than its word announces is refused (R266). -/
theorem step_refused (hh : s.host = .command c :: rest)
    (hp : c.payload.length ≠ paylen c.word) : step s = .refused .payloadLength := by
  cases hd : decode c.word with
  | ok i =>
    obtain ⟨body, hbody⟩ := exec_is_framed i
    rw [step_of_decode hh hd, hbody, payloadBytes_of_decode hd]
    exact framed_refused hp
  | error r =>
    rw [step_of_illegal hh hd]
    exact framed_refused hp

/-- A pair with exactly its payload is answered below the block size, and only that pair leaves the
host's list. -/
theorem step_answers (hb : s.buflen.toNat < blockBytes s.alg) (hh : s.host = .command c :: rest)
    (hp : c.payload.length = paylen c.word) :
    ∃ t r, step s = .next t ∧ t.resp = some r ∧ t.host = rest := by
  cases hd : decode c.word with
  | ok i =>
    obtain ⟨t, ht⟩ := exec_succeeds (i := i) (s := s.present c.payload rest) hb
      (hp.trans (payloadBytes_of_decode hd).symm)
    obtain ⟨r, hr⟩ := exec_answers ht
    exact ⟨t, r, (step_of_decode hh hd).trans ht, hr, exec_host ht⟩
  | error r =>
    exact ⟨_, _, (step_of_illegal hh hd).trans (framed_eq hp), rfl, rfl⟩

end

/-- Below the block size no step faults: it waits, resets, answers or refuses. -/
theorem step_ne_fault {s : State} (hb : s.buflen.toNat < blockBytes s.alg) (f : Fault) :
    step s ≠ .fault f := by
  match hh : s.host with
  | [] => simp [step, hh]
  | .reset :: rest => simp [step, hh]
  | .command c :: rest =>
    by_cases hp : c.payload.length = paylen c.word
    · obtain ⟨t, -, ht, -⟩ := step_answers hb hh hp
      simp [ht]
    · simp [step_refused hh hp]

/-- Settles O52: of the invariant only `BUFLEN < B` (R29) is needed. -/
theorem commandsAreAlwaysAnswered : Obligations.CommandsAreAlwaysAnswered :=
  fun _ hinv => ⟨step_ne_fault hinv.buflen_lt, fun _ _ => step_answers hinv.buflen_lt⟩

end Sys2Proof.Machine

/-! The family 10_state.md: the reset values, the codes and the STATUS port (R25, R33, R38), which
command writes what (R20, R26), the invariant of a command boundary (R37), and that stale contents
never show (R28, R31). -/

namespace Sys2Proof.Machine

/-! ### Reset, codes and STATUS (R25, R33, R38) -/

/-- Settles O8: the fields of `State.reset`, and STATUS evaluated on them. -/
theorem resetStateHasTheStatedValues : Obligations.ResetStateHasTheStatedValues :=
  ⟨rfl, rfl, rfl, rfl, rfl, rfl⟩

/-- Settles O11: the tables of the three code functions. -/
theorem codesOfStateAlgorithmAndStatus : Obligations.CodesOfStateAlgorithmAndStatus :=
  ⟨rfl, rfl, rfl⟩

/-- The fields of a word laid out as STATUS, read back from their positions. -/
theorem extract_statusLayout (dlen : BitVec 7) (buflen : BitVec 8) (alg : BitVec 3)
    (st : BitVec 2) :
    let port := 0#9 ++ dlen ++ buflen ++ 0#3 ++ alg ++ st
    port.extractLsb' 0 2 = st ∧ port.extractLsb' 2 3 = alg ∧ port.extractLsb' 5 3 = 0 ∧
      port.extractLsb' 8 8 = buflen ∧ port.extractLsb' 16 7 = dlen ∧
      port.extractLsb' 23 9 = 0 := by
  refine ⟨?_, ?_, ?_, ?_, ?_, ?_⟩ <;>
    simp (disch := omega) only [BitVec.extractLsb'_append_eq_of_add_le,
      BitVec.extractLsb'_append_eq_of_le] <;>
    exact BitVec.extractLsb'_eq_self

theorem statusPort_agree {s t : State} (hst : s.st = t.st) (halg : s.alg = t.alg)
    (hbuflen : s.buflen = t.buflen) (hdlen : s.dlen = t.dlen) : statusPort s = statusPort t := by
  simp only [statusPort, hst, halg, hbuflen, hdlen]

/-- Settles O12: STATUS is a layout of four fields of the state, and of nothing else. -/
theorem statusPortHasTheStatedLayout : Obligations.StatusPortHasTheStatedLayout :=
  ⟨fun s => extract_statusLayout s.dlen s.buflen (algId s.alg) (lifecycleCode s.st),
    fun _ _ => statusPort_agree⟩

/-! ### What each command writes, and the lifecycle (R20, R26) -/

theorem exec_newInstr (a : Alg) (s : State) : exec (newInstr a) s = newSupported a s := by
  cases a <;> rfl

/-- NEW with a supported algorithm has one answer (R191). -/
theorem exec_newInstr_next {a : Alg} {s t : State} (h : exec (newInstr a) s = .next t) :
    t = (newContext a s).answer ⟨.ok, []⟩ :=
  (newSupported_cases ((exec_newInstr a s).symm.trans h)).2

/-- Padding leaves alone what a feed leaves alone. -/
theorem padAndCompress_frame {s t : State} (h : padAndCompress s = .ok t) : FeedFrame s t :=
  feed_frame (padAndCompress_cases h).2.1

/-- Settles O47: the five ways a command can answer, each with its transition. -/
theorem lifecycleTransitions : Obligations.LifecycleTransitions := by
  intro i s t h
  obtain ⟨r, hr⟩ := exec_answers h
  refine ⟨r, hr, ?_, ?_⟩
  · rintro ⟨a, rfl⟩
    obtain rfl := exec_newInstr_next h
    cases hr
    rfl
  · rcases (exec_cases h).2 with ⟨k, hk, rfl⟩ | ⟨a, hi, rfl⟩ | ⟨n, u, hi, hs, -, hu, rfl⟩ |
      ⟨u, hi, hs, hu, rfl⟩ | ⟨m, hi, hs, rfl⟩ <;> cases hr
    · exact ⟨fun _ => rfl, fun hok => absurd hok hk⟩
    · exact ⟨fun herr => absurd rfl herr, fun _ => .inl ⟨⟨a, hi⟩, rfl⟩⟩
    · exact ⟨fun herr => absurd rfl herr, fun _ => .inr (.inl ⟨⟨n, hi⟩, hs, rfl⟩)⟩
    · exact ⟨fun herr => absurd rfl herr, fun _ => .inr (.inr (.inl ⟨hi, hs, rfl⟩))⟩
    · exact ⟨fun herr => absurd rfl herr, fun _ => .inr (.inr (.inr ⟨⟨m, hi⟩, hs, hs⟩))⟩

/-- Settles O48: an error or a rendering writes only the ports, and each other answer writes the
registers of its own command. -/
theorem stateIsWrittenOnlyByItsCommands : Obligations.StateIsWrittenOnlyByItsCommands := by
  intro i s t h
  rcases (exec_cases h).2 with ⟨k, -, rfl⟩ | ⟨a, rfl, rfl⟩ | ⟨n, u, rfl, -, -, hu, rfl⟩ |
    ⟨u, rfl, -, hu, rfl⟩ | ⟨m, -, -, rfl⟩
  · simp
  · simp
  · have hf := feed_frame hu
    simp [hf.alg, hf.digest, hf.dlen, hf.host]
  · have hf := padAndCompress_frame hu
    simp [hf.alg, hf.len, hf.host]
  · simp

/-! ### The hash registers (R21, R103) -/

theorem toNat_zextWord_lt (v : Word32) : (zextWord v).toNat < 2 ^ 32 := by
  rw [zextWord, BitVec.toNat_setWidth_of_le (by decide)]
  exact v.isLt

section
variable {a : Alg} (h : HashRegs) (block : List Byte) {i : Fin Config.nhmax}

/-- A compression leaves the registers above its hash words as they are (R103). -/
theorem getElem_compress_unused (hi : hashWords a ≤ i.val) : (compress a h block)[i] = h[i] := by
  obtain ⟨i, hlt⟩ := i
  cases a with
  | md5 | sha1 =>
    simp only [hashWords] at hi
    interval_cases i <;> rfl
  | sha224 | sha256 | sha384 | sha512 => exact absurd hlt (Nat.not_lt.mpr hi)

/-- A 32-bit compression writes its hash words with upper halves 0 (R21). -/
theorem toNat_getElem_compress_lt (hw : wordBits a = 32) (hi : i.val < hashWords a) :
    (compress a h block)[i].toNat < 2 ^ 32 := by
  obtain ⟨i, hlt⟩ := i
  cases a with
  | md5 | sha1 | sha224 | sha256 =>
    simp only [hashWords] at hi
    interval_cases i <;> exact toNat_zextWord_lt _
  | sha384 | sha512 => cases hw

end

/-- The form of a register file at a command boundary: the clauses R37 (e) and R21 of `Inv`. -/
structure HashForm (a : Alg) (h : HashRegs) : Prop where
  upper_zero : wordBits a = 32 → ∀ i : Fin Config.nhmax, h[i].toNat < 2 ^ 32
  unused_zero : ∀ i : Fin Config.nhmax, hashWords a ≤ i.val → h[i] = 0

theorem Inv.hashForm {s : State} (h : Inv s) : HashForm s.alg s.h := ⟨h.upper_zero, h.unused_zero⟩

theorem hashForm_initialHash (a : Alg) : HashForm a (initialHash a) := by
  cases a <;> constructor <;> decide

theorem HashForm.compress {a : Alg} {h : HashRegs} (hf : HashForm a h) (block : List Byte) :
    HashForm a (compress a h block) where
  upper_zero hw i := by
    rcases Nat.lt_or_ge i.val (hashWords a) with hi | hi
    · exact toNat_getElem_compress_lt h block hw hi
    · rw [getElem_compress_unused h block hi]
      exact hf.upper_zero hw i
  unused_zero i hi := (getElem_compress_unused h block hi).trans (hf.unused_zero i hi)

theorem HashForm.absorb {a : Alg} {h : HashRegs} (hf : HashForm a h) (data : List Byte) :
    HashForm a (absorb a h data) :=
  absorb_induction (fun _ block hk => hk.compress block) data hf

/-! ### The invariant of a command boundary (R37) -/

/-- Settles O50: each clause evaluated on the reset values. -/
theorem invariantHoldsAtReset : Obligations.InvariantHoldsAtReset := by
  constructor <;> decide

theorem isOpen_iff {s : State} : s.isOpen = true ↔ s.st = .fresh ∨ s.st = .active := by
  simp [State.isOpen]

theorem maxBits_lt_len (a : Alg) : maxBits a < 2 ^ Config.lenw := by cases a <;> decide

/-- Within the length limit `LEN` counts without wrapping (R30, R195). -/
theorem toNat_countBits_len {n : Nat} {s : State}
    (h : s.len.toNat + 8 * n ≤ maxBits s.alg) :
    (countBits n s).len.toNat = s.len.toNat + 8 * n := by
  have := maxBits_lt_len s.alg
  rw [countBits_len, BitVec.toNat_add, BitVec.toNat_ofNat, Nat.add_mod_mod,
    Nat.mod_eq_of_lt (by omega)]

/-- `LEN` after an accepted UPDATE (R195). -/
theorem toNat_countBits_len_of_feed {n : Nat} {data : List Byte} {s u : State}
    (hu : feed data s = .ok u) (hl : s.len.toNat + 8 * n ≤ maxBits s.alg) :
    (countBits n u).len.toNat = s.len.toNat + 8 * n := by
  have hf := feed_frame hu
  rw [toNat_countBits_len (by rwa [hf.len, hf.alg]), hf.len]

theorem HashForm.feed {data : List Byte} {s u : State} (hf : HashForm s.alg s.h)
    (hu : feed data s = .ok u) (hb : Memory.wf s.buf) (hl : s.buflen.toNat < blockBytes s.alg) :
    HashForm u.alg u.h := by
  rw [(feed_frame hu).alg, (feed_blockwise hu hb hl).1]
  exact hf.absorb _

/-! `Inv { s with din := [] }` is the invariant of the boundary before a command that `s` executes:
all of `Inv` but that the payload is still on DIN. -/

namespace Inv

/-- RESET leads to the invariant whatever inputs follow. -/
theorem takeReset (rest : List HostInput) : Inv (takeReset rest) :=
  { invariantHoldsAtReset with }

section
variable {s u : State}

/-- Presenting a command keeps the invariant but for the payload on DIN. -/
theorem present (h : Inv s) (p : List Byte) (rest : List HostInput) :
    Inv { s.present p rest with din := [] } :=
  { h with din_nil := rfl }

/-- An answer that writes no register keeps the invariant. -/
theorem answer (h : Inv { s with din := [] }) (r : Response) : Inv (s.answer r) :=
  { h with }

/-- NEW leads to the invariant from every canonical buffer (R191). -/
theorem answer_newContext (a : Alg) (hb : Memory.wf s.buf) (r : Response) :
    Inv ((newContext a s).answer r) where
  buflen_eq _ := by simp
  buflen_lt := blockBytes_pos a
  len_mod := by simp
  len_le := by simp
  dlen_iff := by simp
  dlen_eq := by simp
  upper_zero := (hashForm_initialHash a).upper_zero
  unused_zero := (hashForm_initialHash a).unused_zero
  fresh_init _ := ⟨rfl, rfl, rfl⟩
  buf_wf := hb
  din_nil := rfl

/-- Before FINALIZE no digest is held (R37 (c)). -/
theorem dlen_eq_zero (h : Inv s) (hs : s.st ≠ .finalized) : s.dlen = 0 :=
  not_not.mp (mt h.dlen_iff.mp hs)

/-- An accepted UPDATE keeps the invariant (R195). -/
theorem answer_countBits (h : Inv { s with din := [] }) (hs : s.st = .fresh ∨ s.st = .active)
    (hl : s.len.toNat + 8 * s.din.length ≤ maxBits s.alg) (hu : feed s.din s = .ok u)
    (r : Response) : Inv ((countBits s.din.length u).answer r) := by
  have hlen : ((countBits s.din.length u).answer r).len.toNat = s.len.toNat + 8 * s.din.length :=
    toNat_countBits_len_of_feed hu hl
  have hmod : s.len.toNat % 8 = 0 := h.len_mod
  have hold : s.buflen.toNat = s.len.toNat / 8 % blockBytes s.alg :=
    h.buflen_eq (isOpen_iff.mpr hs)
  have hbuflen : u.buflen.toNat = (s.buflen.toNat + s.din.length) % blockBytes u.alg := by
    rw [feed_buflen hu h.buflen_lt, (feed_frame hu).alg]
  have hclosed : s.st ≠ .finalized := by rcases hs with hs | hs <;> simp [hs]
  have hdlen : u.dlen = 0 := (feed_frame hu).dlen.trans (h.dlen_eq_zero hclosed)
  have hform : HashForm u.alg u.h := HashForm.feed (s := s) h.hashForm hu h.buf_wf h.buflen_lt
  exact {
    buflen_eq := fun _ => by
      rw [hlen, answer_buflen, countBits_buflen, hbuflen, hold, ← (feed_frame hu).alg,
        Nat.mod_add_mod]
      exact congrArg (· % blockBytes u.alg) (by omega)
    buflen_lt := hbuflen ▸ Nat.mod_lt _ (blockBytes_pos u.alg)
    len_mod := by omega
    len_le := by rwa [hlen, answer_alg, countBits_alg, (feed_frame hu).alg]
    dlen_iff := by simp [hdlen]
    dlen_eq := by simp
    upper_zero := hform.upper_zero
    unused_zero := hform.unused_zero
    fresh_init := by simp
    buf_wf := feed_buf_wf (s := s) (t := u) hu h.buf_wf
    din_nil := rfl }

/-- FINALIZE keeps the invariant (R200). -/
theorem answer_latchDigest (h : Inv { s with din := [] }) (hu : padAndCompress s = .ok u)
    (r : Response) : Inv ((latchDigest u).answer r) := by
  obtain ⟨hl, hfeed, hbuflen⟩ := padAndCompress_cases hu
  have hf := feed_frame hfeed
  have hform : HashForm u.alg u.h := HashForm.feed (s := s) h.hashForm hfeed h.buf_wf hl
  have hdlen := toNat_digestBytes u.alg
  exact {
    buflen_eq := by simp [State.isOpen]
    buflen_lt := by simpa [hbuflen] using blockBytes_pos u.alg
    len_mod := by simpa [hf.len] using h.len_mod
    len_le := by simpa [hf.len, hf.alg] using h.len_le
    dlen_iff := by cases halg : u.alg <;> simp [halg, digestBytes]
    dlen_eq := fun _ => hdlen
    upper_zero := hform.upper_zero
    unused_zero := hform.unused_zero
    fresh_init := by simp
    buf_wf := feed_buf_wf (s := s) (t := u) hfeed h.buf_wf
    din_nil := rfl }

/-- Every command keeps the invariant of the boundary before it. -/
theorem exec {i : Instr} {t : State} (h : Inv { s with din := [] }) (he : exec i s = .next t) :
    Inv t := by
  obtain ⟨hdin, hcases⟩ := exec_cases he
  rcases hcases with ⟨k, -, rfl⟩ | ⟨a, -, rfl⟩ | ⟨n, u, rfl, hs, hl, hu, rfl⟩ |
    ⟨u, -, -, hu, rfl⟩ | ⟨m, -, -, rfl⟩
  · exact h.answer _
  · exact answer_newContext a h.buf_wf _
  · obtain rfl : s.din.length = n := hdin
    exact h.answer_countBits hs hl hu _
  · exact h.answer_latchDigest hu _
  · exact h.answer _

end

end Inv

/-- Settles O51: a step waits, resets, runs a command from a state with the invariant, or refuses an
illegal word. -/
theorem stepKeepsTheInvariant : Obligations.StepKeepsTheInvariant := by
  intro s t h hstep
  rcases step_cases hstep with ⟨-, rfl⟩ | ⟨rest, -, rfl⟩ | ⟨c, rest, i, -, -, he⟩ |
    ⟨c, rest, r, -, -, -, rfl⟩
  · exact h
  · exact Inv.takeReset rest
  · exact (h.present c.payload rest).exec he
  · exact (h.present c.payload rest).answer _

/-! ### The message a context holds (R37 (g)) -/

/-- A context that has just begun holds the empty message. -/
theorem holds_newContext (a : Alg) (s : State) (r : Response) :
    Holds ((newContext a s).answer r) [] where
  is_open := rfl
  len_eq := rfl
  hash_eq := (absorb_short (a := a) (data := []) (blockBytes_pos a)).symm
  buflen_eq := by simp
  tail_eq := (remainder_short (data := []) (blockBytes_pos a)).symm

/-- An accepted UPDATE appends its payload to the message held. -/
theorem Holds.countBits {s u : State} {msg : List Byte} (h : Holds s msg) (hb : Memory.wf s.buf)
    (hl : s.len.toNat + 8 * s.din.length ≤ maxBits s.alg) (hu : feed s.din s = .ok u)
    (r : Response) : Holds ((countBits s.din.length u).answer r) (msg ++ s.din) := by
  have halg : u.alg = s.alg := (feed_frame hu).alg
  have hlt : s.buflen.toNat < blockBytes s.alg := h.buflen_eq ▸ Nat.mod_lt _ (blockBytes_pos _)
  obtain ⟨hhash, htail⟩ := feed_blockwise hu hb hlt
  exact {
    is_open := rfl
    len_eq := by
      rw [answer_len, toNat_countBits_len_of_feed hu hl, h.len_eq, List.length_append]
      omega
    hash_eq := by
      show u.h = absorb u.alg (initialHash u.alg) (msg ++ s.din)
      rw [halg, hhash, h.hash_eq, h.tail_eq, ← absorb_append]
    buflen_eq := by
      show u.buflen.toNat = (msg ++ s.din).length % blockBytes u.alg
      rw [halg, feed_buflen hu hlt, h.buflen_eq, Nat.mod_add_mod, List.length_append]
    tail_eq := by
      show u.tail = remainder (blockBytes u.alg) (msg ++ s.din)
      rw [halg, htail, h.tail_eq, ← remainder_append] }

/-- Settles O22: NEW begins with the empty message, and the one accepted answer of an UPDATE appends
its payload. -/
theorem contextHoldsTheAcceptedMessage : Obligations.ContextHoldsTheAcceptedMessage := by
  refine ⟨fun a s t h => exec_newInstr_next h ▸ holds_newContext a s _, ?_⟩
  intro n s t msg hmsg hb h hok
  obtain ⟨hdin, ⟨-, rfl⟩ | ⟨-, -, rfl⟩ | ⟨-, hl, u, hu, rfl⟩⟩ := execUpdate_cases h
  · simp at hok
  · simp at hok
  · subst hdin
    exact hmsg.countBits hb hl hu _

/-! ### Stale contents never show (R21, R28, R31, R38) -/

theorem hashWords_le_nhmax (a : Alg) : hashWords a ≤ Config.nhmax := by cases a <;> decide

/-- Register files that agree on the hash words of an algorithm: what `LookAlike` asks of `H`. -/
def HashWordsAgree (a : Alg) (h k : HashRegs) : Prop :=
  ∀ i : Fin Config.nhmax, i.val < hashWords a → h[i] = k[i]

namespace HashWordsAgree
variable {a : Alg} {h k : HashRegs}

theorem eq_of_all (hk : HashWordsAgree a h k) (ha : hashWords a = Config.nhmax) : h = k :=
  Vector.ext fun i hi => hk ⟨i, hi⟩ (hi.trans_eq ha.symm)

theorem loadMd5_eq (hk : HashWordsAgree .md5 h k) : loadMd5 h = loadMd5 k := by
  have h0 : h[0] = k[0] := hk 0 (by decide)
  have h1 : h[1] = k[1] := hk 1 (by decide)
  have h2 : h[2] = k[2] := hk 2 (by decide)
  have h3 : h[3] = k[3] := hk 3 (by decide)
  simp only [loadMd5, h0, h1, h2, h3]

theorem loadSha1_eq (hk : HashWordsAgree .sha1 h k) : loadSha1 h = loadSha1 k := by
  have h0 : h[0] = k[0] := hk 0 (by decide)
  have h1 : h[1] = k[1] := hk 1 (by decide)
  have h2 : h[2] = k[2] := hk 2 (by decide)
  have h3 : h[3] = k[3] := hk 3 (by decide)
  have h4 : h[4] = k[4] := hk 4 (by decide)
  simp only [loadSha1, h0, h1, h2, h3, h4]

/-- A compression reads no register above its hash words. -/
theorem compress (hk : HashWordsAgree a h k) (block : List Byte) :
    HashWordsAgree a (compress a h block) (compress a k block) := by
  cases a with
  | md5 =>
    rintro ⟨i, _⟩ hi
    simp only [hashWords] at hi
    rw [Machine.compress, Machine.compress, hk.loadMd5_eq]
    interval_cases i <;> rfl
  | sha1 =>
    rintro ⟨i, _⟩ hi
    simp only [hashWords] at hi
    rw [Machine.compress, Machine.compress, hk.loadSha1_eq]
    interval_cases i <;> rfl
  | sha224 | sha256 | sha384 | sha512 =>
    obtain rfl := hk.eq_of_all rfl
    exact fun _ _ => rfl

/-- The digest reads no register above the hash words (R203). -/
theorem digestOf_eq (hk : HashWordsAgree a h k) : digestOf a h = digestOf a k := by
  have hser : serialise a h = serialise a k := by
    refine List.flatMap_congr fun i hi => ?_
    have hi := List.mem_range.mp hi
    have hn : i < Config.nhmax := Nat.lt_of_lt_of_le hi (hashWords_le_nhmax a)
    have hword : h[i] = k[i] := hk ⟨i, hn⟩ hi
    simp [hn, hword]
  rw [digestOf, digestOf, hser]

end HashWordsAgree

/-- A byte is stored wherever the buffer has one. -/
theorem feedByte_succeeds_of_lt_bmax {b : Byte} {s : State} (h : s.buflen.toNat < Config.bmax) :
    ∃ t, feedByte b s = .ok t := by
  have hw : memWrite s.buf s.buflen.toNat b = .ok (s.buf.write s.buflen.toNat b) := if_pos h
  simp only [feedByte, hw, memRead_block]
  split <;> exact ⟨_, rfl⟩

/-- The tail grows by the byte kept, also where `BUFLEN` is past the block size of `ALG`: the
increment does not wrap below `BMAX`, the block size of SHA512. -/
theorem tail_keepByte {s : State} (hb : Memory.wf s.buf) (hl : s.buflen.toNat < Config.bmax)
    (b : Byte) : (s.keepByte (s.buf.write s.buflen.toNat b)).tail = s.tail ++ [b] := by
  have hn : (s.buflen + 1).toNat = s.buflen.toNat + 1 := toNat_buflen_succ (a := .sha512) hl
  rw [← map_read_write hb, State.tail, keepByte_buflen, hn]
  rfl

theorem FeedFrame.isOpen {s t : State} (h : FeedFrame s t) : t.isOpen = s.isOpen := by
  rw [State.isOpen, h.st, State.isOpen]

theorem feedByte_buf_wf {b : Byte} {s t : State} (h : feedByte b s = .ok t)
    (hs : Memory.wf s.buf) : Memory.wf t.buf :=
  feed_buf_wf (data := [b]) (by simp [feed_cons, h]) hs

namespace LookAlike

section
variable {s t : State}

theorem isOpen_eq (h : LookAlike s t) : s.isOpen = t.isOpen := by
  rw [State.isOpen, State.isOpen, h.st_eq]

theorem present (h : LookAlike s t) (p : List Byte) (rest : List HostInput) :
    LookAlike (s.present p rest) (t.present p rest) :=
  { h with host_eq := rfl, din_eq := rfl }

theorem answer (h : LookAlike s t) (r : Response) : LookAlike (s.answer r) (t.answer r) :=
  { h with din_eq := rfl, resp_eq := rfl }

theorem newContext (h : LookAlike s t) (a : Alg) :
    LookAlike (newContext a s) (newContext a t) where
  st_eq := rfl
  alg_eq := rfl
  buflen_eq := rfl
  len_eq := rfl
  dlen_eq := rfl
  host_eq := h.host_eq
  din_eq := h.din_eq
  resp_eq := h.resp_eq
  hash_eq _ _ _ := rfl
  tail_eq _ := rfl
  digest_eq := rfl

end

theorem refl (s : State) : LookAlike s s := by constructor <;> intros <;> rfl

theorem countBits {s t : State} (h : LookAlike s t) (n : Nat) (ho : s.isOpen = true) :
    LookAlike (countBits n s) (countBits n t) :=
  { h with
    st_eq := rfl
    len_eq := congrArg (· + BitVec.ofNat Config.lenw (8 * n)) h.len_eq
    hash_eq := fun _ => h.hash_eq ho
    tail_eq := fun _ => h.tail_eq ho }

/-- The latch makes the digest held a function of the hash words. -/
theorem latchDigest {s t : State} (h : LookAlike s t) (ho : s.isOpen = true) :
    LookAlike (latchDigest s) (latchDigest t) :=
  { h with
    st_eq := rfl
    dlen_eq := by rw [latchDigest_dlen, latchDigest_dlen, h.alg_eq]
    hash_eq := fun hc => absurd hc Bool.false_ne_true
    tail_eq := fun hc => absurd hc Bool.false_ne_true
    digest_eq := by
      have hk : HashWordsAgree s.alg s.h t.h := h.hash_eq ho
      rw [heldDigest_latchDigest, heldDigest_latchDigest, hk.digestOf_eq, h.alg_eq] }

/-- Fed the same byte, open contexts that look alike store it after the same tail, and a flush
compresses the same block. -/
theorem feedByte {s t s' : State} {b : Byte} (h : LookAlike s t) (ho : s.isOpen = true)
    (hs : Memory.wf s.buf) (ht : Memory.wf t.buf) (hf : feedByte b s = .ok s') :
    ∃ t', feedByte b t = .ok t' ∧ LookAlike s' t' := by
  have hlt := (feedByte_cases hf).1
  obtain ⟨t', hf'⟩ := feedByte_succeeds_of_lt_bmax (b := b) (h.buflen_eq ▸ hlt)
  refine ⟨t', hf', ?_⟩
  have htail := h.tail_eq ho
  obtain ⟨-, ⟨hn, rfl⟩ | ⟨hn, rfl⟩⟩ := feedByte_cases hf <;>
    obtain ⟨hlt', ⟨hn', rfl⟩ | ⟨hn', rfl⟩⟩ := feedByte_cases hf'
  · rw [← hn, ← hn', map_read_write hs, map_read_write ht, htail]
    exact { h with
      buflen_eq := rfl
      hash_eq := fun ho => by
        have hk : HashWordsAgree s.alg s.h t.h := h.hash_eq ho
        show HashWordsAgree s.alg (compress s.alg s.h _) (compress t.alg t.h _)
        rw [← h.alg_eq]
        exact hk.compress _
      tail_eq := fun _ => rfl }
  · exact absurd (h.buflen_eq ▸ h.alg_eq ▸ hn) hn'
  · exact absurd (h.buflen_eq ▸ h.alg_eq ▸ hn') hn
  · exact { h with
      buflen_eq := congrArg (· + 1) h.buflen_eq
      tail_eq := fun _ => by rw [tail_keepByte hs hlt, tail_keepByte ht hlt', htail] }

/-- A feed keeps open contexts alike. -/
theorem feed {data : List Byte} {s t s' : State} (h : LookAlike s t) (ho : s.isOpen = true)
    (hs : Memory.wf s.buf) (ht : Memory.wf t.buf) (hf : feed data s = .ok s') :
    ∃ t', feed data t = .ok t' ∧ LookAlike s' t' := by
  induction data generalizing s t with
  | nil =>
    cases hf
    exact ⟨t, rfl, h⟩
  | cons b data ih =>
    obtain ⟨u, hu, hd⟩ := feed_cons_ok hf
    obtain ⟨v, hv, huv⟩ := h.feedByte ho hs ht hu
    have hou : u.isOpen = true := (feedByte_frame hu).isOpen.trans ho
    obtain ⟨t', ht', hlook⟩ := ih huv hou (feedByte_buf_wf hu hs) (feedByte_buf_wf hv ht) hd
    exact ⟨t', by rw [feed_cons, hv]; exact ht', hlook⟩

/-- Padding keeps open contexts alike. -/
theorem padAndCompress {s t s' : State} (h : LookAlike s t) (ho : s.isOpen = true)
    (hs : Memory.wf s.buf) (ht : Memory.wf t.buf) (hp : padAndCompress s = .ok s') :
    ∃ t', padAndCompress t = .ok t' ∧ LookAlike s' t' := by
  obtain ⟨hl, hf, -⟩ := padAndCompress_cases hp
  rw [Machine.padAndCompress, ← h.buflen_eq, ← h.alg_eq, ← h.len_eq, if_pos hl]
  exact h.feed ho hs ht hf

end LookAlike

/-- A meaning that answers states that look alike with states that look alike. -/
def AnswersAlike (f : State → Host.Outcome State Fault Refusal) : Prop :=
  ∀ {s t s' : State}, LookAlike s t → Memory.wf s.buf → Memory.wf t.buf → f s = .next s' →
    ∃ t', f t = .next t' ∧ LookAlike s' t'

theorem answersAlike_newSupported (a : Alg) : AnswersAlike (newSupported a) := by
  intro s t s' h _ _ hx
  obtain ⟨hd, rfl⟩ := newSupported_cases hx
  have hd' := List.eq_nil_of_length_eq_zero (h.din_eq ▸ hd)
  exact ⟨_, newSupported_answers a hd', (h.newContext a).answer _⟩

theorem answersAlike_newUnsupported : AnswersAlike newUnsupported := by
  intro s t s' h _ _ hx
  obtain ⟨hd, rfl⟩ := newUnsupported_cases hx
  have hd' := List.eq_nil_of_length_eq_zero (h.din_eq ▸ hd)
  exact ⟨_, newUnsupported_answers hd', h.answer _⟩

theorem answersAlike_execUpdate (n : Nat) : AnswersAlike (execUpdate n) := by
  intro s t s' h hs ht hx
  obtain ⟨hd, ⟨hc, rfl⟩ | ⟨ho, hl, rfl⟩ | ⟨ho, hl, u, hu, rfl⟩⟩ := execUpdate_cases hx <;>
    obtain rfl : t.din.length = n := h.din_eq ▸ hd
  · exact ⟨_, execUpdate_refused (h.st_eq ▸ hc), h.answer _⟩
  · have ho' := h.isOpen_eq ▸ isOpen_iff.mpr ho
    exact ⟨_, execUpdate_overflows ho' (h.alg_eq ▸ h.len_eq ▸ hl), h.answer _⟩
  · have ho' := h.isOpen_eq ▸ isOpen_iff.mpr ho
    obtain ⟨v, hv, huv⟩ := h.feed (isOpen_iff.mpr ho) hs ht hu
    have hou := (feed_frame hu).isOpen.trans (isOpen_iff.mpr ho)
    exact ⟨_, execUpdate_feeds ho' (h.alg_eq ▸ h.len_eq ▸ hl) (h.din_eq ▸ hv),
      (huv.countBits _ hou).answer _⟩

theorem answersAlike_execFinalize : AnswersAlike execFinalize := by
  intro s t s' h hs ht hx
  obtain ⟨hd, ⟨hc, rfl⟩ | ⟨ho, u, hu, rfl⟩⟩ := execFinalize_cases hx <;>
    have hd' := List.eq_nil_of_length_eq_zero (h.din_eq ▸ hd)
  · exact ⟨_, execFinalize_refused hd' (h.st_eq ▸ hc), h.answer _⟩
  · obtain ⟨v, hv, huv⟩ := h.padAndCompress (isOpen_iff.mpr ho) hs ht hu
    have hlatch := huv.latchDigest ((padAndCompress_frame hu).isOpen.trans (isOpen_iff.mpr ho))
    exact ⟨_, execFinalize_pads hd' (h.isOpen_eq ▸ isOpen_iff.mpr ho) hv,
      hlatch.digest_eq ▸ hlatch.answer _⟩

theorem answersAlike_formatDigest (m : Mode) : AnswersAlike (formatDigest m) := by
  intro s t s' h _ _ hx
  obtain ⟨hd, ⟨hc, rfl⟩ | ⟨hf, rfl⟩⟩ := formatDigest_cases hx <;>
    have hd' := List.eq_nil_of_length_eq_zero (h.din_eq ▸ hd)
  · exact ⟨_, formatDigest_refused m hd' (h.st_eq ▸ hc), h.answer _⟩
  · exact ⟨_, formatDigest_renders m hd' (h.st_eq ▸ hf), h.digest_eq ▸ h.answer _⟩

theorem answersAlike_exec (i : Instr) : AnswersAlike (exec i) := by
  cases i with
  | newMd5 => exact answersAlike_newSupported .md5
  | newSha1 => exact answersAlike_newSupported .sha1
  | newSha224 => exact answersAlike_newSupported .sha224
  | newSha256 => exact answersAlike_newSupported .sha256
  | newSha384 => exact answersAlike_newSupported .sha384
  | newSha512 => exact answersAlike_newSupported .sha512
  | update n => exact answersAlike_execUpdate n
  | finalize => exact answersAlike_execFinalize
  | formatRaw => exact answersAlike_formatDigest .raw
  | formatHex => exact answersAlike_formatDigest .hex
  | _ => exact answersAlike_newUnsupported

theorem answersAlike_step : AnswersAlike step := by
  intro s t s' h hs ht hx
  rcases step_cases hx with ⟨hh, rfl⟩ | ⟨rest, hh, rfl⟩ | ⟨c, rest, i, hh, hi, he⟩ |
    ⟨c, rest, r, hh, hr, hp, rfl⟩ <;> rw [h.host_eq] at hh
  · exact ⟨t, by rw [step, hh], h⟩
  · exact ⟨takeReset rest, by rw [step, hh], .refl _⟩
  · obtain ⟨t', ht', hlook⟩ := answersAlike_exec i (h.present c.payload rest) hs ht he
    exact ⟨t', (step_of_decode hh hi).trans ht', hlook⟩
  · exact ⟨_, (step_of_illegal hh hr).trans (framed_eq hp), (h.present c.payload rest).answer _⟩

/-- Settles O53: every step answers states that look alike with states that look alike, and STATUS
shows only fields on which such states agree. -/
theorem staleContentsNeverShow : Obligations.StaleContentsNeverShow := by
  intro s t s' hs ht h hstep
  obtain ⟨t', ht', hlook⟩ := answersAlike_step h hs ht hstep
  exact ⟨t', ht', hlook,
    statusPort_agree hlook.st_eq hlook.alg_eq hlook.buflen_eq hlook.dlen_eq⟩

end Sys2Proof.Machine

/-! The family 20_memory.md: the length field's size and byte order (R52). -/

namespace Sys2Proof.Machine

theorem lt_pow_lengthFieldBytes_of_le_maxBits {a : Alg} {n : Nat} (h : n ≤ maxBits a) :
    n < 256 ^ lengthFieldBytes a :=
  calc n < 2 ^ (8 * lengthFieldBytes a) := Nat.lt_of_le_pred (Nat.two_pow_pos _) h
    _ = 256 ^ lengthFieldBytes a := Nat.pow_mul 2 8 _

theorem lengthField_md5 (n : Nat) : lengthField .md5 n = toLe n (lengthFieldBytes .md5) := rfl

theorem lengthField_sha {a : Alg} (ha : a ≠ .md5) (n : Nat) :
    lengthField a n = toBe n (lengthFieldBytes a) := by
  cases a with
  | md5 => exact absurd rfl ha
  | _ => rfl

theorem lengthFieldBytes_eq_ite (a : Alg) :
    lengthFieldBytes a = if a = .sha384 ∨ a = .sha512 then 16 else 8 := by
  cases a <;> rfl

/-- Settles O26: a length within the limit fits into the field, so the conversion that lays its
bytes down loses nothing. -/
theorem lengthFieldCarriesTheLength : Obligations.LengthFieldCarriesTheLength := by
  intro a n hn
  have hfits : n % 256 ^ lengthFieldBytes a = n :=
    Nat.mod_eq_of_lt (lt_pow_lengthFieldBytes_of_le_maxBits hn)
  refine ⟨(length_lengthField a n).trans (lengthFieldBytes_eq_ite a), ?_⟩
  split_ifs with ha
  · subst ha
    rw [lengthField_md5, le_toLe, hfits]
  · rw [lengthField_sha ha, be_toBe, hfits]

end Sys2Proof.Machine

/-! The family 30_encoding.md: the command word, its decoder and encoder, the opcode rows, illegal
words, the form of a response, and the host's long UPDATE and algorithm names (R71 to R85). -/

namespace Sys2Proof

/-! ### The command word and its fields (R71, R74 to R78) -/

theorem commandWord_fields (w : BitVec 32) :
    commandWord (opField w) (argField w) (cntField w) = w := by
  refine BitVec.eq_of_getLsbD_eq fun i hi => ?_
  simp only [commandWord, opField, argField, cntField, BitVec.getLsbD_append,
    BitVec.getLsbD_extractLsb']
  by_cases hcnt : i < 24
  · simp [hcnt]
  · by_cases harg : i - 24 < 4
    · simp [hcnt, harg, show 24 + (i - 24) = i by omega]
    · simp [hcnt, harg, show i - 24 - 4 < 4 by omega, show 28 + (i - 24 - 4) = i by omega]

/-- A word is put together from three fields exactly when it reads back as them. -/
theorem eq_commandWord_iff {w : BitVec 32} {op arg : BitVec 4} {cnt : BitVec 24} :
    w = commandWord op arg cnt ↔ opField w = op ∧ argField w = arg ∧ cntField w = cnt := by
  constructor
  · rintro rfl
    simp
  · rintro ⟨rfl, rfl, rfl⟩
    exact (commandWord_fields w).symm

theorem opField_and (v w : BitVec 32) : opField (v &&& w) = opField v &&& opField w :=
  BitVec.extractLsb'_and

theorem argField_and (v w : BitVec 32) : argField (v &&& w) = argField v &&& argField w :=
  BitVec.extractLsb'_and

theorem cntField_and (v w : BitVec 32) : cntField (v &&& w) = cntField v &&& cntField w :=
  BitVec.extractLsb'_and

/-! ### What each legal word decodes to (R81) -/

theorem decode_commandWord_new (arg : BitVec 4) :
    decode (commandWord 0x1 arg 0) = .ok (decodeNew arg) := by
  simp [decode]

theorem decode_commandWord_update (cnt : BitVec 24) :
    decode (commandWord 0x2 0 cnt) = .ok (.update cnt.toNat) := by
  simp [decode]

theorem decode_commandWord_finalize : decode (commandWord 0x3 0 0) = .ok .finalize := by
  simp [decode]

theorem decode_commandWord_formatRaw : decode (commandWord 0x4 0 0) = .ok .formatRaw := by
  simp [decode]

theorem decode_commandWord_formatHex : decode (commandWord 0x4 1 0) = .ok .formatHex := by
  simp [decode]

/-- Everything the decoder accepts: the five shapes of a legal word, each with its command. -/
theorem decode_cases {w : BitVec 32} {i : Instr} (h : decode w = .ok i) :
    (∃ arg, w = commandWord 0x1 arg 0 ∧ i = decodeNew arg) ∨
      (∃ cnt, w = commandWord 0x2 0 cnt ∧ i = .update cnt.toNat) ∨
      (w = commandWord 0x3 0 0 ∧ i = .finalize) ∨
      (w = commandWord 0x4 0 0 ∧ i = .formatRaw) ∨
      (w = commandWord 0x4 1 0 ∧ i = .formatHex) := by
  unfold decode at h
  split_ifs at h with hNew hc hUpdate ha hFinalize hac hFormat hRaw hHex <;> cases h
  · exact .inl ⟨_, eq_commandWord_iff.mpr ⟨hNew, rfl, hc⟩, rfl⟩
  · exact .inr (.inl ⟨_, eq_commandWord_iff.mpr ⟨hUpdate, ha, rfl⟩, rfl⟩)
  · exact .inr (.inr (.inl ⟨eq_commandWord_iff.mpr ⟨hFinalize, hac⟩, rfl⟩))
  · exact .inr (.inr (.inr (.inl ⟨eq_commandWord_iff.mpr ⟨hFormat, hRaw.symm⟩, rfl⟩)))
  · exact .inr (.inr (.inr (.inr ⟨eq_commandWord_iff.mpr ⟨hFormat, hHex.symm⟩, rfl⟩)))

/-- The five shapes of a legal word, by its fields (R74, R75, R77, R78). -/
def HasLegalShape (w : BitVec 32) : Prop :=
  (∃ arg, w = commandWord 0x1 arg 0) ∨ (∃ cnt, w = commandWord 0x2 0 cnt) ∨
    w = commandWord 0x3 0 0 ∨ w = commandWord 0x4 0 0 ∨ w = commandWord 0x4 1 0

theorem exists_decode_ok_iff {w : BitVec 32} :
    (∃ i, decode w = .ok i) ↔ HasLegalShape w := by
  constructor
  · rintro ⟨i, h⟩
    rcases decode_cases h with ⟨arg, hw, -⟩ | ⟨cnt, hw, -⟩ | ⟨hw, -⟩ | ⟨hw, -⟩ | ⟨hw, -⟩
    · exact .inl ⟨arg, hw⟩
    · exact .inr (.inl ⟨cnt, hw⟩)
    · exact .inr (.inr (.inl hw))
    · exact .inr (.inr (.inr (.inl hw)))
    · exact .inr (.inr (.inr (.inr hw)))
  · rintro (⟨arg, rfl⟩ | ⟨cnt, rfl⟩ | rfl | rfl | rfl)
    · exact ⟨_, decode_commandWord_new arg⟩
    · exact ⟨_, decode_commandWord_update cnt⟩
    · exact ⟨_, decode_commandWord_finalize⟩
    · exact ⟨_, decode_commandWord_formatRaw⟩
    · exact ⟨_, decode_commandWord_formatHex⟩

/-! ### The round trips between words and commands (R81) -/

/-- Settles O1: each constructor's word is one of the five legal shapes; an UPDATE's count comes
back whole because it fits the 24 bits of `cnt`. -/
theorem decodeOfEncodeIsTheCommand : Obligations.DecodeOfEncodeIsTheCommand := by
  intro i hwf
  cases i with
  | update n =>
    have hn : n < 2 ^ 24 := of_decide_eq_true hwf
    rw [encode, decode_commandWord_update, BitVec.toNat_ofNat, Nat.mod_eq_of_lt hn]
  | finalize => exact decode_commandWord_finalize
  | formatRaw => exact decode_commandWord_formatRaw
  | formatHex => exact decode_commandWord_formatHex
  | _ => exact decode_commandWord_new _

theorem wf_decodeNew (arg : BitVec 4) : (decodeNew arg).wf = true := by
  unfold decodeNew
  split <;> rfl

/-- No two algorithm ids share a command: the encoder gives back the id that was decoded (R74). -/
theorem encode_decodeNew (arg : BitVec 4) : encode (decodeNew arg) = commandWord 0x1 arg 0 := by
  revert arg
  decide

/-- Settles O2: each of the five legal shapes is the word of its command. -/
theorem encodeOfDecodeIsTheWord : Obligations.EncodeOfDecodeIsTheWord := by
  intro w i h
  rcases decode_cases h with ⟨arg, rfl, rfl⟩ | ⟨cnt, rfl, rfl⟩ | ⟨rfl, rfl⟩ | ⟨rfl, rfl⟩ |
    ⟨rfl, rfl⟩
  · exact ⟨wf_decodeNew arg, encode_decodeNew arg⟩
  · exact ⟨decide_eq_true cnt.isLt, by rw [encode, BitVec.ofNat_toNat, BitVec.setWidth_eq]⟩
  · exact ⟨rfl, rfl⟩
  · exact ⟨rfl, rfl⟩
  · exact ⟨rfl, rfl⟩

/-! ### The opcode rows (R73) -/

/-- A row with a full mask selects one word. -/
theorem rowSelects_fullMask {m w : BitVec 32} : rowSelects 0xffffffff#32 m w = true ↔ w = m := by
  have hfull : 0xffffffff#32 = BitVec.allOnes 32 := by decide
  rw [rowSelects, beq_iff_eq, hfull, BitVec.and_allOnes, eq_comm]

/-- UPDATE's row looks at `op` and `arg` only. -/
theorem rowSelects_update {w : BitVec 32} :
    rowSelects 0xff000000#32 0x20000000#32 w = true ↔ ∃ cnt, w = commandWord 0x2 0 cnt := by
  have hmatch : 0x20000000#32 = commandWord 0x2 0 0 := by decide
  have hop : opField 0xff000000#32 = BitVec.allOnes 4 := by decide
  have harg : argField 0xff000000#32 = BitVec.allOnes 4 := by decide
  have hcnt : cntField 0xff000000#32 = 0#24 := by decide
  rw [rowSelects, beq_iff_eq, hmatch, eq_commandWord_iff, opField_and, argField_and, cntField_and,
    hop, harg, hcnt, BitVec.and_allOnes, BitVec.and_allOnes, BitVec.and_zero]
  simp [eq_commandWord_iff]

/-- The rows in the order of the ids: sixteen for NEW, one for UPDATE, and three more. -/
theorem opcodeRows_eq : opcodeRows =
    (List.finRange 16).map (fun id => (commandWord 0x1 (BitVec.ofFin id) 0, 0xffffffff)) ++
      [(0x20000000#32, 0xff000000#32), (commandWord 0x3 0 0, 0xffffffff),
        (commandWord 0x4 0 0, 0xffffffff), (commandWord 0x4 1 0, 0xffffffff)] := by
  decide

theorem exists_row_selects_iff {w : BitVec 32} :
    (∃ row ∈ opcodeRows, rowSelects row.2 row.1 w = true) ↔ HasLegalShape w := by
  have hnew : (∃ id : Fin 16, w = commandWord 0x1#4 (BitVec.ofFin id) 0#24) ↔
      ∃ arg, w = commandWord 0x1#4 arg 0#24 :=
    ⟨fun ⟨id, h⟩ => ⟨_, h⟩, fun ⟨arg, h⟩ => ⟨arg.toFin, h⟩⟩
  simp [HasLegalShape, opcodeRows_eq, or_and_right, exists_or, rowSelects_fullMask,
    rowSelects_update, hnew]

/-- Two rows that disagree on a bit both look at select no word in common. -/
theorem not_rowSelects_both {p q : BitVec 32 × BitVec 32} (h : p.1 &&& q.2 ≠ q.1 &&& p.2)
    (w : BitVec 32) : ¬ (rowSelects p.2 p.1 w = true ∧ rowSelects q.2 q.1 w = true) := by
  rintro ⟨hp, hq⟩
  simp only [rowSelects, beq_iff_eq] at hp hq
  rw [← hp, ← hq, BitVec.and_assoc, BitVec.and_assoc, BitVec.and_comm p.2] at h
  exact h rfl

/-- Settles O4: both sides are the five shapes of a legal word, and each two rows disagree on a bit
both look at. -/
theorem opcodeRowsSelectTheLegalWordsOnce : Obligations.OpcodeRowsSelectTheLegalWordsOnce := by
  refine ⟨fun w => exists_row_selects_iff.trans exists_decode_ok_iff.symm, ?_⟩
  have hdisagree : opcodeRows.Pairwise fun p q => p.1 &&& q.2 ≠ q.1 &&& p.2 := by decide
  exact hdisagree.imp not_rowSelects_both

/-- Settles O3: the decoder evaluated on each word. -/
theorem tableWordsDecodeToTheirCommands : Obligations.TableWordsDecodeToTheirCommands := by
  unfold Obligations.TableWordsDecodeToTheirCommands
  decide

end Sys2Proof

namespace Sys2Proof.Machine

/-! ### Illegal words (R80) -/

/-- The words that R80 calls illegal are the words the decoder rejects. -/
theorem exists_decode_error_iff {w : BitVec 32} :
    (∃ r, decode w = .error r) ↔ IllegalFields w := by
  have harg (a : BitVec 4) : 1 < a.toNat ↔ a ≠ 0 ∧ a ≠ 1 := by revert a; decide
  have hop (o : BitVec 4) : (o = 0 ∨ 5 ≤ o.toNat) ↔ o ≠ 1 ∧ o ≠ 2 ∧ o ≠ 3 ∧ o ≠ 4 := by
    revert o; decide
  unfold decode IllegalFields
  rw [hop, harg]
  split_ifs with hNew hc hUpdate ha hFinalize hac hFormat hRaw hHex
  · simp [hNew, hc]
  · simp [hNew, hc]
  · simp [hUpdate, ha]
  · simp [hUpdate, ha]
  · simp [hFinalize, hac]
  · simpa [hFinalize, imp_iff_not_or] using hac
  · simp [hFormat, hRaw]
  · simp [hFormat, hHex]
  · by_cases hc : cntField w = 0#24
    · simpa [hFormat, hc] using And.intro hRaw hHex
    · simp [hFormat, hc]
  · simp [hNew, hUpdate, hFinalize, hFormat]

/-- Settles O5: an illegal word is one the decoder rejects, and the step of a rejected word with its
payload is the one error answer. -/
theorem illegalWordsRaiseIllegalCommand : Obligations.IllegalWordsRaiseIllegalCommand := by
  refine ⟨fun _ => exists_decode_error_iff, fun s c rest hh hill hlen => ?_, rfl, by decide,
    by decide⟩
  obtain ⟨r, hr⟩ := exists_decode_error_iff.mpr hill
  rw [step_of_illegal hh hr]
  exact framed_eq hlen

/-! ### The form of a response (R82) -/

theorem statusCode_le_four (k : Status) : (statusCode k).toNat ≤ 4 := by cases k <;> decide

theorem length_heldDigest_of_le {s : State} (h : s.dlen.toNat ≤ Config.dmax) :
    s.heldDigest.length = s.dlen.toNat := by
  simpa [State.heldDigest] using h

@[simp] theorem length_hexBytes (d : List Byte) : (hexBytes d).length = 2 * d.length := by
  simp [hexBytes, hexByte, Nat.mul_comm]

/-- Neither FINALIZE nor FORMAT is a NEW. -/
theorem ne_newInstr (a : Alg) :
    .finalize ≠ newInstr a ∧ .formatRaw ≠ newInstr a ∧ .formatHex ≠ newInstr a := by
  cases a <;> decide

theorem Inv.length_heldDigest {s : State} (h : Inv { s with din := [] }) (hs : s.st = .finalized) :
    s.heldDigest.length = s.dlen.toNat := by
  have hd : s.dlen.toNat = digestBytes s.alg := h.dlen_eq hs
  exact length_heldDigest_of_le (hd ▸ digestBytes_le_dmax s.alg)

/-- Settles O49: the five ways a command can answer; only FINALIZE and FORMAT put bytes on DOUT. -/
theorem responsesHaveTheStatedForm : Obligations.ResponsesHaveTheStatedForm := by
  intro i s t hinv h
  rcases (exec_cases h).2 with ⟨k, hk, rfl⟩ | ⟨a, rfl, rfl⟩ | ⟨n, u, rfl, -, -, -, rfl⟩ |
    ⟨u, rfl, -, hu, rfl⟩ | ⟨m, rfl, hs, rfl⟩
  all_goals refine ⟨_, rfl, statusCode_le_four _, ?_⟩
  · simp [hk]
  · simp [eq_comm (a := newInstr a), ne_newInstr]
  · simp
  · have hdlen : (latchDigest u).dlen.toNat = digestBytes u.alg := toNat_digestBytes u.alg
    have hlen := length_heldDigest_of_le (hdlen ▸ digestBytes_le_dmax u.alg)
    have halg : u.alg = s.alg := (padAndCompress_frame hu).alg
    exact ⟨by simp, by simp [ne_newInstr], by simp, fun _ _ => ⟨rfl, hlen, halg ▸ hdlen⟩, by simp,
      by simp⟩
  · have hlen := hinv.length_heldDigest hs
    cases m with
    | raw => simp [formatInstr, render, hlen, ne_newInstr]
    | hex => simp [formatInstr, render, hlen, ne_newInstr]

/-! ### The host's side (R84, R85) -/

/-- An UPDATE of at most `maxChunk` bytes has a command word. -/
theorem wf_update_of_le_maxChunk {n : Nat} (h : n ≤ maxChunk) : (Instr.update n).wf = true :=
  decide_eq_true (Nat.lt_of_le_pred (Nat.two_pow_pos _) h)

/-- Settles O56: the slices of the data, each short enough for the word of its UPDATE. -/
theorem longUpdateIsCutIntoLegalUpdates : Obligations.LongUpdateIsCutIntoLegalUpdates := by
  intro data
  refine ⟨by rw [map_payload_updateCommands, flatten_chunks],
    by simpa [updateCommands] using chunks_ne_nil data, fun c hc => ?_⟩
  obtain ⟨x, hx, rfl⟩ := List.mem_map.mp hc
  have hlen := length_of_mem_chunks hx
  have hwf := wf_update_of_le_maxChunk hlen
  exact ⟨beq_iff_eq.mpr (Laws.Framing.update _ hwf).symm, hlen, decodeOfEncodeIsTheCommand _ hwf⟩

/-- Settles O57: the comparisons of the name one by one. -/
theorem unknownNamesAreEncodedAsIdFifteen : Obligations.UnknownNamesAreEncodedAsIdFifteen := by
  refine ⟨fun name h => ?_, by decide, by decide⟩
  simp only [List.mem_cons, List.not_mem_nil, or_false, not_or] at h
  have : assembleNew name = .newUnsupported15 := by simp [assembleNew, h]
  rw [this]
  decide

end Sys2Proof.Machine

/-! The family 40_blockbuffer.md: which bytes of `BUF` a feed stores (R101), and the hash registers a
compression writes (R103). -/

namespace Sys2Proof.Machine

/-! ### The bytes a feed stores (R101) -/

theorem feedAddress_zero {a : Alg} {n : Nat} (h : n < blockBytes a) : feedAddress a n 0 = n :=
  Nat.mod_eq_of_lt h

theorem feedAddress_succ (a : Alg) (n k : Nat) :
    feedAddress a ((n + 1) % blockBytes a) k = feedAddress a n (k + 1) := by
  rw [feedAddress, feedAddress, Nat.mod_add_mod, Nat.add_right_comm, Nat.add_assoc]

/-- No later byte comes round to the first byte's address within one block. -/
theorem ne_feedAddress_of_lt {a : Alg} {n k : Nat} (hn : n < blockBytes a) (hk : 0 < k)
    (hkb : k < blockBytes a) : n ≠ feedAddress a n k := by
  intro h
  have hmod : n + k ≡ n + 0 [MOD blockBytes a] := h.symm.trans (Nat.mod_eq_of_lt hn).symm
  exact hk.ne' ((Nat.ModEq.add_left_cancel' n hmod).eq_of_lt_of_lt hkb (hk.trans hkb))

/-- One byte of a feed is stored at `BUFLEN`, flush or not. -/
theorem feedByte_bufByte_same {b : Byte} {s t : State} (h : feedByte b s = .ok t)
    (hs : Memory.wf s.buf) : t.bufByte s.buflen.toNat = b := by
  obtain ⟨-, ⟨-, rfl⟩ | ⟨-, rfl⟩⟩ := feedByte_cases h <;> exact Memory.read_write_same hs _ _

/-- Byte `k` of a feed stands at its address afterwards when at most a block of data is left from
it on: no later byte comes round to that address. -/
theorem feed_bufByte_stored {data : List Byte} {s t : State} (h : feed data s = .ok t)
    (hs : Memory.wf s.buf) (hl : s.buflen.toNat < blockBytes s.alg) {k : Nat}
    (hk : k < data.length) (hd : data.length ≤ k + blockBytes s.alg) :
    t.bufByte (feedAddress s.alg s.buflen.toNat k) = data.getD k 0 := by
  induction data generalizing s k with
  | nil => cases hk
  | cons b data ih =>
    obtain ⟨u, hu, hrest⟩ := feed_cons_ok h
    have hul := feedByte_buflen hu hl
    have hua := (feedByte_frame hu).alg
    have hlt : u.buflen.toNat < blockBytes u.alg := by
      rw [hua, hul]
      exact Nat.mod_lt _ (blockBytes_pos _)
    have hshift (j : Nat) :
        feedAddress u.alg u.buflen.toNat j = feedAddress s.alg s.buflen.toNat (j + 1) := by
      rw [hua, hul, feedAddress_succ]
    rw [List.length_cons] at hk hd
    cases k with
    | zero =>
      have hkept : t.bufByte s.buflen.toNat = u.bufByte s.buflen.toNat := by
        refine feed_bufByte_other hrest hlt fun j hj => ?_
        rw [hshift]
        exact ne_feedAddress_of_lt hl j.succ_pos (by omega)
      rw [feedAddress_zero hl, hkept, feedByte_bufByte_same hu hs, List.getD_cons_zero]
    | succ k =>
      rw [← hshift, List.getD_cons_succ]
      exact ih hrest (feedByte_buf_wf hu hs) hlt (by omega) (by rw [hua]; omega)

/-- Settles O18: an error stores nothing, and an accepted UPDATE stores what `feed` stores. -/
theorem updateStoresOnlyThePayload : Obligations.UpdateStoresOnlyThePayload := by
  intro n s t hl hs h
  obtain ⟨rfl, ⟨-, rfl⟩ | ⟨-, -, rfl⟩ | ⟨-, -, u, hu, rfl⟩⟩ := execUpdate_cases h
  · exact ⟨fun _ _ => rfl, fun hr => by simp at hr⟩
  · exact ⟨fun _ _ => rfl, fun hr => by simp at hr⟩
  · exact ⟨fun _ hx => feed_bufByte_other hu hl hx,
      fun _ _ hk hd => feed_bufByte_stored hu hs hl hk hd⟩

/-! ### The hash registers (R103) -/

/-- Settles O36, by the registers above the hash words and those of the 32-bit algorithms. -/
theorem compressionWritesOnlyItsHashWords : Obligations.CompressionWritesOnlyItsHashWords :=
  fun _ h block _ => ⟨getElem_compress_unused h block,
    fun hi hw => toNat_getElem_compress_lt h block hw hi⟩

end Sys2Proof.Machine

/-! The family 41_md5_compress.md: the initial vectors (R112, R132, R142, R143, R162, R163), the index
and rotation tables of MD5 (R114, R115), and the worked examples of the compression functions (R121,
R138, R150, R170). -/

namespace Sys2Proof.Machine

/-! ### The initial vectors (R112, R132, R142, R143, R162, R163) -/

/-- Settles O14: NEW answers with the context's initial registers, whose values are compared one
algorithm at a time. -/
theorem newLoadsTheInitialVector : Obligations.NewLoadsTheInitialVector := by
  intro a s hd
  refine ⟨_, (exec_newInstr a s).trans (newSupported_answers a hd), ?_⟩
  rw [answer_h, newContext_h]
  cases a <;> decide

/-! ### The tables of MD5 (R114, R115) -/

/-- Settles O32: the index by its four formulas, the rotation amounts by its four rows. -/
theorem md5IndexAndShiftTables : Obligations.Md5IndexAndShiftTables :=
  ⟨by decide, by decide⟩

/-! ### The worked examples (R121, R138, R150, R170)

The examples are stated of the padded message that FINALIZE feeds, and evaluated by the kernel; that
these are the blocks R121, R138 and R170 print is said apart. -/

theorem paddedMessage_md5_empty : paddedMessage .md5 [] = 0x80 :: List.replicate 63 0 := by decide

theorem paddedMessage_sha256_abc : paddedMessage .sha256 [0x61, 0x62, 0x63] =
    [0x61, 0x62, 0x63, 0x80] ++ List.replicate 59 0 ++ [0x18] := by decide

theorem paddedMessage_sha512_abc : paddedMessage .sha512 [0x61, 0x62, 0x63] =
    [0x61, 0x62, 0x63, 0x80] ++ List.replicate 123 0 ++ [0x18] := by decide

/-- SHA1 pads as SHA256 does (R8, R181). -/
theorem paddedMessage_sha1 (msg : List Byte) :
    paddedMessage .sha1 msg = paddedMessage .sha256 msg := rfl

/-- After steps 0 and 32, and the result (R121). -/
theorem md5Compress_empty :
    md5Rounds (md5Message (paddedMessage .md5 [])) md5IV 1 =
      ⟨0x10325476, 0xa5202774, 0xefcdab89, 0x98badcfe⟩ ∧
    md5Rounds (md5Message (paddedMessage .md5 [])) md5IV 33 =
      ⟨0xae7813db, 0xdf63eaa1, 0xa2205f1f, 0x1c31c384⟩ ∧
    md5Compress md5IV (paddedMessage .md5 []) =
      ⟨0xd98c1dd4, 0x04b2008f, 0x980980e9, 0x7e42f8ec⟩ := by
  decide +kernel

/-- After step 40, and the result (R138). -/
theorem sha1Compress_abc :
    sha1Rounds (sha1Schedule (paddedMessage .sha1 [0x61, 0x62, 0x63])) sha1IV 41 =
      ⟨0xfc87dedf, 0x32de1cba, 0x53261901, 0xf718e5cf, 0x03d447f6⟩ ∧
    sha1Compress sha1IV (paddedMessage .sha1 [0x61, 0x62, 0x63]) =
      ⟨0xa9993e36, 0x4706816a, 0xba3e2571, 0x7850c26c, 0x9cd0d89d⟩ := by
  decide +kernel

/-- SHA256 after step 2, and the results of SHA256 and SHA224 (R150). -/
theorem sha256Compress_abc :
    sha256Rounds (sha256Schedule (paddedMessage .sha256 [0x61, 0x62, 0x63])) sha256IV 3 =
      ⟨0xc8c347a7, 0x5a6ad9ad, 0x5d6aebcd, 0x6a09e667, 0xf92939eb, 0x78ce7989, 0xfa2a4622,
       0x510e527f⟩ ∧
    sha256Compress sha256IV (paddedMessage .sha256 [0x61, 0x62, 0x63]) =
      ⟨0xba7816bf, 0x8f01cfea, 0x414140de, 0x5dae2223, 0xb00361a3, 0x96177a9c, 0xb410ff61,
       0xf20015ad⟩ ∧
    sha256Compress sha224IV (paddedMessage .sha256 [0x61, 0x62, 0x63]) =
      ⟨0x23097d22, 0x3405d822, 0x8642a477, 0xbda255b3, 0x2aadbce4, 0xbda0b3f7, 0xe36c9da7,
       0xd2da082d⟩ := by
  decide +kernel

/-- The results of SHA512 and SHA384 (R170). -/
theorem sha512Compress_abc :
    sha512Compress sha512IV (paddedMessage .sha512 [0x61, 0x62, 0x63]) =
      ⟨0xddaf35a193617aba, 0xcc417349ae204131, 0x12e6fa4e89a97ea2, 0x0a9eeee64b55d39a,
       0x2192992a274fc1a8, 0x36ba3c23a3feebbd, 0x454d4423643ce80e, 0x2a9ac94fa54ca49f⟩ ∧
    sha512Compress sha384IV (paddedMessage .sha512 [0x61, 0x62, 0x63]) =
      ⟨0xcb00753f45a35e8b, 0xb5a03d699ac65007, 0x272c32ab0eded163, 0x1a8b605a43ff5bed,
       0x8086072ba1e7cc23, 0x58baeca134c825a7, 0xa303edfdf3b89cd7, 0x0c66918ece57ba15⟩ := by
  decide +kernel

/-- Settles O35: the example of each compression function, with the padded message written out. -/
theorem workedExamplesOfTheCompressionsComeOut :
    Obligations.WorkedExamplesOfTheCompressionsComeOut := by
  obtain ⟨hmd5Step0, hmd5Step32, hmd5⟩ := paddedMessage_md5_empty ▸ md5Compress_empty
  obtain ⟨hsha1Step40, hsha1⟩ := paddedMessage_sha256_abc ▸ paddedMessage_sha1 _ ▸ sha1Compress_abc
  obtain ⟨hsha256Step2, hsha256, hsha224⟩ := paddedMessage_sha256_abc ▸ sha256Compress_abc
  obtain ⟨hsha512, hsha384⟩ := paddedMessage_sha512_abc ▸ sha512Compress_abc
  exact ⟨hmd5Step0, hmd5Step32, hmd5, hsha1Step40, hsha1, hsha256Step2, hsha256, hsha224, hsha512,
    hsha384⟩

end Sys2Proof.Machine

/-! The family 42_sha1_sha256_compress.md: the message schedules of SHA-1 and SHA-224/256 (R131, R133,
R141, R145), and the SHA-2 tables as bits of roots of the primes (R142, R143, R146, R162, R163, R166). -/

namespace Sys2Proof.Machine

/-! ### The recurrence of a message schedule

One more step appends one word, so a schedule begins with the message words, and every later word is
the recurrence on the words before it. -/

theorem getD_reverse_take {α : Type} (xs : List α) (d : α) {t k : Nat} (ht : t ≤ xs.length)
    (hk : k < t) : (xs.take t).reverse.getD k d = xs.getD (t - (k + 1)) d := by
  have hlen : (xs.take t).length = t := List.length_take_of_le ht
  rw [List.getD_reverse k (hlen.symm ▸ hk), hlen, Nat.sub_sub, Nat.add_comm 1 k,
    List.getD_eq_getElem?_getD, List.getElem?_take_of_lt (by omega), List.getD_eq_getElem?_getD]

section Schedule

variable {w : Nat} (next : List (BitVec w) → BitVec w) {m : List (BitVec w)} {n t : Nat}

theorem growSchedule_succ (n : Nat) (ws : List (BitVec w)) :
    growSchedule next (n + 1) ws = next (growSchedule next n ws) :: growSchedule next n ws := by
  induction n generalizing ws with
  | zero => rfl
  | succ n ih => exact ih (next ws :: ws)

theorem schedule_zero (m : List (BitVec w)) : schedule next 0 m = m := List.reverse_reverse m

theorem schedule_succ (n : Nat) (m : List (BitVec w)) :
    schedule next (n + 1) m = schedule next n m ++ [next (schedule next n m).reverse] := by
  rw [schedule, growSchedule_succ, List.reverse_cons, schedule, List.reverse_reverse]

@[simp] theorem length_schedule (n : Nat) (m : List (BitVec w)) :
    (schedule next n m).length = m.length + n := by
  induction n with
  | zero => rw [schedule_zero, Nat.add_zero]
  | succ n ih => rw [schedule_succ, List.length_append, ih, List.length_singleton, Nat.add_assoc]

theorem schedule_getD_of_lt (ht : t < m.length) :
    (schedule next n m).getD t 0 = m.getD t 0 := by
  induction n with
  | zero => rw [schedule_zero]
  | succ n ih =>
    rw [schedule_succ, List.getD_append _ _ _ _ (by rw [length_schedule]; omega), ih]

/-- The recurrence reads the words before the one it computes newest first. -/
theorem schedule_getD_of_le (hm : m.length ≤ t) (ht : t < m.length + n) :
    (schedule next n m).getD t 0 = next ((schedule next n m).take t).reverse := by
  induction n with
  | zero => omega
  | succ n ih =>
    have hlen := length_schedule next n m
    rw [schedule_succ]
    obtain hlt | rfl : t < m.length + n ∨ t = m.length + n := by omega
    · rw [List.getD_append _ _ _ _ (hlen ▸ hlt), List.take_append_of_le_length (hlen ▸ hlt.le),
        ih hlt]
    · rw [← hlen, List.getD_append_right _ _ _ _ le_rfl, Nat.sub_self, List.getD_cons_zero,
        List.take_left]

/-- Every later word is the recurrence on the words before it; entry `k` of these, newest first, is
`W[t − (k + 1)]`. -/
theorem exists_schedule_getD_eq_next (hm : m.length ≤ t) (ht : t < m.length + n) :
    ∃ ws, (schedule next n m).getD t 0 = next ws ∧
      ∀ k < t, ws.getD k 0 = (schedule next n m).getD (t - (k + 1)) 0 :=
  ⟨_, schedule_getD_of_le next hm ht,
    fun _ => getD_reverse_take _ 0 (ht.le.trans (length_schedule next n m).ge)⟩

end Schedule

/-! ### The schedules of SHA-1 and SHA-224/256 (R131, R133, R141, R145) -/

@[simp] theorem length_be32Words (block : List Byte) : (be32Words block).length = 16 := by
  simp [be32Words]

theorem be32Words_getD (block : List Byte) {j : Nat} (hj : j < 16) :
    (be32Words block).getD j 0 = be32 (slice block (4 * j) 4) := by
  simp [be32Words, hj]

/-- Settles O29: the recurrence reads `W[t−3]`, `W[t−8]`, `W[t−14]` and `W[t−16]`. -/
theorem sha1ScheduleFollowsTheRecurrence : Obligations.Sha1ScheduleFollowsTheRecurrence := by
  intro block
  refine ⟨by simp [sha1Schedule], fun j hj => ?_, fun t h16 h80 => ?_⟩
  · exact (schedule_getD_of_lt _ (by simpa using hj)).trans (be32Words_getD block hj)
  · obtain ⟨ws, hnext, hread⟩ : ∃ ws, (sha1Schedule block).getD t 0 = sha1Next ws ∧
        ∀ k < t, ws.getD k 0 = (sha1Schedule block).getD (t - (k + 1)) 0 :=
      exists_schedule_getD_eq_next _ (by simpa using h16) (by simpa using h80)
    rw [hnext, sha1Next, hread 2 (by omega), hread 7 (by omega), hread 13 (by omega),
      hread 15 (by omega)]

/-- Settles O30: the recurrence reads `W[t−2]`, `W[t−7]`, `W[t−15]` and `W[t−16]`. -/
theorem sha256ScheduleFollowsTheRecurrence : Obligations.Sha256ScheduleFollowsTheRecurrence := by
  intro block
  refine ⟨by simp [sha256Schedule], fun j hj => ?_, fun t h16 h64 => ?_⟩
  · exact (schedule_getD_of_lt _ (by simpa using hj)).trans (be32Words_getD block hj)
  · obtain ⟨ws, hnext, hread⟩ : ∃ ws, (sha256Schedule block).getD t 0 = sha256Next ws ∧
        ∀ k < t, ws.getD k 0 = (sha256Schedule block).getD (t - (k + 1)) 0 :=
      exists_schedule_getD_eq_next _ (by simpa using h16) (by simpa using h64)
    rw [hnext, sha256Next, hread 1 (by omega), hread 6 (by omega), hread 14 (by omega),
      hread 15 (by omega)]

/-! ### The SHA-2 tables as bits of roots of the primes (R142, R143, R146, R162, R163, R166)

The primes below a bound are found by trial division with all smaller numbers; it suffices to divide
by the numbers below the bound's square root, which keeps the evaluation short. -/

theorem trialDivision_iff_of_lt_sq {b n : Nat} (hn : n < b * b) :
    (2 ≤ n ∧ ∀ d < n, 2 ≤ d → n % d ≠ 0) ↔ 2 ≤ n ∧ ∀ d < b, d < n → 2 ≤ d → n % d ≠ 0 := by
  refine and_congr_right fun _ => ⟨fun h d _ => h d, fun h d hlt hd hmod => ?_⟩
  obtain ⟨e, rfl⟩ := Nat.dvd_of_mod_eq_zero hmod
  obtain hdb | heb : d < b ∨ e < b := by
    by_contra! hle
    exact hn.not_ge (Nat.mul_le_mul hle.1 hle.2)
  · exact h d hdb hlt hd hmod
  · have he : 1 < e := (Nat.lt_mul_iff_one_lt_right (by omega)).1 hlt
    exact h e heb ((Nat.lt_mul_iff_one_lt_left (by omega)).2 hd) he (Nat.mul_mod_left d e)

theorem filter_trialDivision {b n : Nat} (hn : n ≤ b * b) :
    ((List.range n).filter fun n => 2 ≤ n ∧ ∀ d < n, 2 ≤ d → n % d ≠ 0) =
      (List.range n).filter fun n => 2 ≤ n ∧ ∀ d < b, d < n → 2 ≤ d → n % d ≠ 0 :=
  List.filter_congr fun _ hp =>
    decide_eq_decide.2 (trialDivision_iff_of_lt_sq ((List.mem_range.1 hp).trans_le hn))

/-- Settles O33: each constant is compared with the cube root of its prime. -/
theorem roundConstantsAreCubeRootBits : Obligations.RoundConstantsAreCubeRootBits := by
  rw [Obligations.RoundConstantsAreCubeRootBits, filter_trialDivision (b := 21) (by decide)]
  exact ⟨by decide +kernel, by decide, by decide, by decide +kernel, by decide +kernel,
    by decide +kernel⟩

/-- Settles O34: each register is compared with the square root of its prime, and the 32-bit vectors
with the halves of the 64-bit ones. -/
theorem sha2InitialVectorsAreSquareRootBits :
    Obligations.Sha2InitialVectorsAreSquareRootBits :=
  ⟨by decide, by decide, by decide⟩

end Sys2Proof.Machine

/-! The family 43_sha512_compress.md: the message schedule of SHA-384/512 (R161, R165). -/

namespace Sys2Proof.Machine

@[simp] theorem length_be64Words (block : List Byte) : (be64Words block).length = 16 := by
  simp [be64Words]

theorem be64Words_getD (block : List Byte) {j : Nat} (hj : j < 16) :
    (be64Words block).getD j 0 = be64 (slice block (8 * j) 8) := by
  simp [be64Words, hj]

@[simp] theorem length_sha512Schedule (block : List Byte) : (sha512Schedule block).length = 80 := by
  simp [sha512Schedule]

/-- The first 16 words are the message words (R161). -/
theorem sha512Schedule_getD_of_lt (block : List Byte) {j : Nat} (hj : j < 16) :
    (sha512Schedule block).getD j 0 = be64 (slice block (8 * j) 8) :=
  (schedule_getD_of_lt _ (by simpa using hj)).trans (be64Words_getD block hj)

/-- Every later word is `sha512Next` of the words before it, newest first (R165). -/
theorem exists_sha512Schedule_getD_eq_next (block : List Byte) {t : Nat} (h16 : 16 ≤ t)
    (h80 : t < 80) :
    ∃ ws, (sha512Schedule block).getD t 0 = sha512Next ws ∧
      ∀ k < t, ws.getD k 0 = (sha512Schedule block).getD (t - (k + 1)) 0 :=
  exists_schedule_getD_eq_next _ (by simpa using h16) (by simpa using h80)

/-- Settles O31: the recurrence reads `W[t−2]`, `W[t−7]`, `W[t−15]` and `W[t−16]`. -/
theorem sha512ScheduleFollowsTheRecurrence : Obligations.Sha512ScheduleFollowsTheRecurrence := by
  intro block
  refine ⟨length_sha512Schedule block, fun j hj => sha512Schedule_getD_of_lt block hj,
    fun t h16 h80 => ?_⟩
  obtain ⟨ws, hnext, hread⟩ := exists_sha512Schedule_getD_eq_next block h16 h80
  rw [hnext, sha512Next, hread 1 (by omega), hread 6 (by omega), hread 14 (by omega),
    hread 15 (by omega)]

end Sys2Proof.Machine

/-! The family 44_padding.md: the number of padding zeros, the blocks they make, and the padding
FSM (R181 to R185). -/

namespace Sys2Proof.Machine

/-! ### The number of zeros (R182) -/

theorem lengthFieldBytes_eq_div (a : Alg) : lengthFieldBytes a = blockBytes a / 8 := by
  cases a <;> rfl

theorem lengthFieldBytes_pos (a : Alg) : 0 < lengthFieldBytes a := by cases a <;> decide

theorem padZeros_lt (a : Alg) (n : Nat) : padZeros a n < blockBytes a :=
  Nat.mod_lt _ (blockBytes_pos a)

/-- A tail that leaves room for the mark and the length field is filled up to that field. -/
theorem padZeros_of_room {a : Alg} {n : Nat} (hn : n + 1 ≤ blockBytes a - lengthFieldBytes a) :
    padZeros a n = blockBytes a - lengthFieldBytes a - (n + 1) := by
  have hL := lengthFieldBytes_lt_blockBytes a
  have hsum : 2 * blockBytes a - lengthFieldBytes a - (n + 1) =
      blockBytes a - lengthFieldBytes a - (n + 1) + blockBytes a := by omega
  rw [padZeros, hsum, Nat.add_mod_right, Nat.mod_eq_of_lt (by omega)]

/-- A longer tail is filled up to the length field of the next block. -/
theorem padZeros_of_no_room {a : Alg} {n : Nat} (hn : blockBytes a - lengthFieldBytes a ≤ n) :
    padZeros a n = 2 * blockBytes a - lengthFieldBytes a - (n + 1) := by
  have hL := lengthFieldBytes_lt_blockBytes a
  exact Nat.mod_eq_of_lt (by omega)

/-- The zeros bring the buffer to the place of the length field. -/
theorem add_padZeros_mod {a : Alg} {n : Nat} (hn : n < blockBytes a) :
    (n + 1 + padZeros a n) % blockBytes a = blockBytes a - lengthFieldBytes a := by
  have hL := lengthFieldBytes_lt_blockBytes a
  have hpos := lengthFieldBytes_pos a
  rcases Nat.lt_or_ge n (blockBytes a - lengthFieldBytes a) with hroom | hroom
  · rw [padZeros_of_room hroom, Nat.add_sub_cancel' hroom, Nat.mod_eq_of_lt (by omega)]
  · have hsum : n + 1 + (2 * blockBytes a - lengthFieldBytes a - (n + 1)) =
        blockBytes a - lengthFieldBytes a + blockBytes a := by omega
    rw [padZeros_of_no_room hroom, hsum, Nat.add_mod_right, Nat.mod_eq_of_lt (by omega)]

/-- Any other number of zeros that does so is congruent to `z` modulo `B`, hence no smaller. -/
theorem padZeros_le {a : Alg} {n z : Nat} (hn : n < blockBytes a)
    (hz : (n + 1 + z) % blockBytes a = blockBytes a - lengthFieldBytes a) : padZeros a n ≤ z :=
  have hmod : padZeros a n ≡ z [MOD blockBytes a] :=
    Nat.ModEq.add_left_cancel' (n + 1) ((add_padZeros_mod hn).trans hz.symm)
  calc padZeros a n = padZeros a n % blockBytes a := (Nat.mod_eq_of_lt (padZeros_lt a n)).symm
    _ = z % blockBytes a := hmod
    _ ≤ z := Nat.mod_le _ _

theorem padZeros_eq_ite (a : Alg) (n : Nat) :
    padZeros a n =
      if n + 1 ≤ blockBytes a - lengthFieldBytes a then
        blockBytes a - lengthFieldBytes a - (n + 1)
      else 2 * blockBytes a - lengthFieldBytes a - (n + 1) := by
  split_ifs with hroom
  · exact padZeros_of_room hroom
  · exact padZeros_of_no_room (by omega)

/-- Settles O23: `z` reaches the length field, is least by congruence modulo `B`, and has the two
values that depend on whether the tail leaves room for the field. -/
theorem paddingZerosAreTheLeast : Obligations.PaddingZerosAreTheLeast := by
  intro a n hn
  refine ⟨add_padZeros_mod hn, fun z hz => padZeros_le hn hz, Nat.le_pred_of_lt (padZeros_lt a n),
    fun hB => ?_, fun hB => ?_⟩
  all_goals
    rw [padZeros_eq_ite, lengthFieldBytes_eq_div, hB]
    split_ifs <;> omega

/-! ### One block or two (R184) -/

/-- The two blocks of a tail that leaves no room for the length field. -/
theorem append_padString_of_no_room {a : Alg} {tail : List Byte} (ht : tail.length < blockBytes a)
    (hroom : blockBytes a - lengthFieldBytes a ≤ tail.length) (len : Nat) :
    tail ++ padString a tail.length len =
      (tail ++ 0x80#8 :: List.replicate (blockBytes a - tail.length - 1) 0x00#8) ++
        (List.replicate (blockBytes a - lengthFieldBytes a) 0x00#8 ++ lengthField a len) := by
  have hL := lengthFieldBytes_lt_blockBytes a
  have hz : padZeros a tail.length =
      (blockBytes a - tail.length - 1) + (blockBytes a - lengthFieldBytes a) := by
    rw [padZeros_of_no_room hroom]
    omega
  rw [padString, hz, List.replicate_add]
  simp only [List.append_assoc, List.cons_append, List.nil_append]

/-- Settles O24: the one block by its length, the two by the cut that falls among the zeros. -/
theorem paddingMakesOneOrTwoBlocks : Obligations.PaddingMakesOneOrTwoBlocks := by
  intro a tail len ht
  have hL := lengthFieldBytes_lt_blockBytes a
  refine ⟨fun hroom => ?_, fun hroom => ?_⟩
  · rw [List.length_append, length_padString, padZeros_of_room (by omega)]
    omega
  · have hfirst :
        (tail ++ 0x80#8 :: List.replicate (blockBytes a - tail.length - 1) 0x00#8).length =
          blockBytes a := by
      simp
      omega
    rw [append_padString_of_no_room ht hroom]
    refine ⟨?_, List.take_left' hfirst, List.drop_left' hfirst⟩
    rw [List.length_append, hfirst]
    simp
    omega

/-! ### The padding FSM (R185) -/

theorem padZeroPhase_of_reached {s : State}
    (h : s.buflen.toNat = blockBytes s.alg - lengthFieldBytes s.alg) (fuel : Nat) :
    padZeroPhase fuel s = .ok s := by
  cases fuel with
  | zero => rfl
  | succ fuel => rw [padZeroPhase, if_pos h]

theorem padZeroPhase_of_not_reached {s t : State}
    (h : s.buflen.toNat ≠ blockBytes s.alg - lengthFieldBytes s.alg)
    (ht : feed [0x00#8] s = .ok t) (fuel : Nat) :
    padZeroPhase (fuel + 1) s = padZeroPhase fuel t := by
  rw [padZeroPhase, if_neg h, ht]

/-- The phase ZERO feeds `k` zeros when `k`, less than a block, is the distance to the length field:
a full turn around the block is the only way to come back to a place. -/
theorem padZeroPhase_eq_feed {k fuel : Nat} {s : State} (hs : s.buflen.toNat < blockBytes s.alg)
    (hk : k < blockBytes s.alg) (hfuel : k ≤ fuel)
    (hreach : (s.buflen.toNat + k) % blockBytes s.alg =
      blockBytes s.alg - lengthFieldBytes s.alg) :
    padZeroPhase fuel s = feed (List.replicate k 0x00#8) s := by
  induction k generalizing s fuel with
  | zero => exact padZeroPhase_of_reached (by rwa [Nat.add_zero, Nat.mod_eq_of_lt hs] at hreach) fuel
  | succ k ih =>
    obtain ⟨fuel, rfl⟩ := Nat.exists_eq_add_of_le' (Nat.le_of_add_left_le hfuel)
    have hnot : s.buflen.toNat ≠ blockBytes s.alg - lengthFieldBytes s.alg := by
      intro hat
      have hturn : k + 1 ≡ 0 [MOD blockBytes s.alg] :=
        Nat.ModEq.add_left_cancel' s.buflen.toNat
          (hreach.trans (hat.symm.trans (Nat.mod_eq_of_lt hs).symm))
      exact Nat.succ_ne_zero k (hturn.eq_of_lt_of_lt hk (blockBytes_pos _))
    obtain ⟨t, ht, hl⟩ := feed_succeeds [0x00#8] hs
    have ha := (feed_frame ht).alg
    rw [List.length_singleton] at hl
    calc padZeroPhase (fuel + 1) s = padZeroPhase fuel t := padZeroPhase_of_not_reached hnot ht fuel
      _ = feed (List.replicate k 0x00#8) t := by
        refine ih ?_ ?_ (by omega) ?_ <;> rw [ha]
        · exact hl ▸ Nat.mod_lt _ (blockBytes_pos _)
        · omega
        · rw [hl, Nat.mod_add_mod, Nat.add_assoc, Nat.add_comm 1 k, hreach]
      _ = feed (List.replicate (k + 1) 0x00#8) s := (feed_append_ok ht).symm

/-- Settles O25: the phases feed the mark, the zeros and the length field, which are the parts of
the padding string. -/
theorem paddingFsmFeedsThePaddingString : Obligations.PaddingFsmFeedsThePaddingString := by
  intro s hs
  obtain ⟨marked, hmark, hl⟩ := feed_succeeds [0x80#8] hs
  have ha := (feed_frame hmark).alg
  have hbelow : marked.buflen.toNat < blockBytes marked.alg := by
    rw [hl, ha]
    exact Nat.mod_lt _ (blockBytes_pos _)
  obtain ⟨zeroed, hzero, -⟩ :=
    feed_succeeds (List.replicate (padZeros s.alg s.buflen.toNat) 0x00#8) hbelow
  have hphase : padZeroPhase (blockBytes s.alg) marked = .ok zeroed := by
    have hz := padZeros_lt s.alg s.buflen.toNat
    rw [padZeroPhase_eq_feed hbelow (ha ▸ hz) hz.le, hzero]
    rw [hl, ha, Nat.mod_add_mod]
    exact add_padZeros_mod hs
  rw [padFsm, hmark]
  simp only [hphase]
  rw [padAndCompress, if_pos hs, padString, feed_append_ok ((feed_append_ok hmark).trans hzero)]

end Sys2Proof.Machine

/-! The family 45_context_commands.md: NEW, UPDATE and FINALIZE, what a cutting into UPDATEs leaves
behind, and the one-shot DIGEST (R191 to R206). -/

namespace Sys2Proof.Machine

/-! ### NEW (R191 to R194) -/

/-- Settles O13: the one answer of NEW, whose fields are those of `newContext`. -/
theorem newCreatesAFreshContext : Obligations.NewCreatesAFreshContext :=
  fun a s hd => (exec_newInstr a s).trans (newSupported_answers a hd)

/-- The commands of the ten unsupported ids share one meaning. -/
theorem exec_of_mem_unsupportedInstrs {i : Instr} (hi : i ∈ unsupportedInstrs) :
    exec i = newUnsupported := by
  simp only [unsupportedInstrs, List.cons_append, List.nil_append, List.mem_cons,
    List.not_mem_nil, or_false] at hi
  rcases hi with rfl | rfl | rfl | rfl | rfl | rfl | rfl | rfl | rfl | rfl <;> rfl

theorem decodeNew_mem_unsupportedInstrs {arg : BitVec 4} (h : 6 ≤ arg.toNat) :
    decodeNew arg ∈ unsupportedInstrs := by
  revert arg
  decide

/-- Settles O15: the ten commands share one meaning, and the decoder reads them from the ids. -/
theorem unsupportedIdsRaiseUnsupportedAlgorithm :
    Obligations.UnsupportedIdsRaiseUnsupportedAlgorithm := by
  refine ⟨fun i hi s hd => ?_, fun arg h =>
    ⟨_, decodeNew_mem_unsupportedInstrs h, decode_commandWord_new arg⟩⟩
  rw [exec_of_mem_unsupportedInstrs hi]
  exact newUnsupported_answers hd

/-- A new context shows nothing of the state it was made in but the host's inputs (R193). -/
theorem lookAlike_newContext (a : Alg) {s t : State} (hh : s.host = t.host) (r : Response) :
    LookAlike ((newContext a s).answer r) ((newContext a t).answer r) where
  st_eq := rfl
  alg_eq := rfl
  buflen_eq := rfl
  len_eq := rfl
  dlen_eq := rfl
  host_eq := hh
  din_eq := rfl
  resp_eq := rfl
  hash_eq _ _ _ := rfl
  tail_eq _ := rfl
  digest_eq := rfl

/-- Settles O16: both answers are new contexts of the one algorithm. -/
theorem newForgetsTheOldContext : Obligations.NewForgetsTheOldContext := by
  intro a s t s' t' hh hs ht
  obtain rfl := exec_newInstr_next hs
  obtain rfl := exec_newInstr_next ht
  exact lookAlike_newContext a hh _

/-! ### UPDATE (R195, R196) -/

/-- Settles O17: the feed in its block-wise form, then the count. -/
theorem updateFeedsTheBlocks : Obligations.UpdateFeedsTheBlocks := by
  rintro n s ho rfl hl hb hwf
  obtain ⟨u, hu, hbuflen⟩ := feed_succeeds s.din hb
  obtain ⟨hhash, htail⟩ := feed_blockwise hu hwf hb
  have hf := feed_frame hu
  exact ⟨_, execUpdate_feeds ho hl hu, rfl, hf.alg, hhash, hbuflen, htail,
    toNat_countBits_len_of_feed hu hl, hf.digest, hf.dlen, hf.host, rfl, rfl⟩

/-- Settles O19: the length check comes before the feed. -/
theorem updatePastTheLimitWritesNothing : Obligations.UpdatePastTheLimitWritesNothing := by
  rintro n s ho rfl hl
  exact execUpdate_overflows ho hl

/-! ### Fresh against Active (R198) -/

theorem feedByte_error {b : Byte} {s : State} {f : Fault} (h : feedByte b s = .error f) :
    f = .bufferRange := by
  unfold feedByte at h
  rcases memWrite_cases s.buf s.buflen.toNat b with ⟨-, hw⟩ | ⟨-, hw⟩
  · simp only [hw, memRead_block] at h
    split at h <;> cases h
  · simp only [hw, Except.error.injEq] at h
    exact h.symm

/-- A feed stops for one reason only. -/
theorem feed_error {data : List Byte} {s : State} {f : Fault} (h : feed data s = .error f) :
    f = .bufferRange := by
  induction data generalizing s with
  | nil => cases h
  | cons b data ih =>
    rw [feed_cons] at h
    split at h
    · next g hg => exact (Except.error.inj h) ▸ feedByte_error hg
    · exact ih h

/-- The feed of a state is the feed of another that agrees on `ALG`, `H`, `BUF` and `BUFLEN`, stops
included (R100). -/
theorem feed_eq_map_of_agree (data : List Byte) {s t : State} (ha : t.alg = s.alg) (hh : t.h = s.h)
    (hb : t.buf = s.buf) (hl : t.buflen = s.buflen) :
    feed data t = (feed data s).map t.withFed := by
  cases hs : feed data s with
  | ok u => exact feed_eq_of_agree hs ha hh hb hl
  | error f =>
    cases ht : feed data t with
    | ok v => simp [feed_eq_of_agree ht ha.symm hh.symm hb.symm hl.symm] at hs
    | error g => rw [feed_error hs, feed_error ht]; rfl

/-- Outcomes of one command in Fresh and in Active that the rule R198 calls the same: both stop
alike, or both answer with the same response and the same state but for `ST`, and with the same `ST`
too when the response is OK. -/
inductive SameButForSt :
    Host.Outcome State Fault Refusal → Host.Outcome State Fault Refusal → Prop
  | answered {t u : State} (resp : u.resp = t.resp)
      (rest : { u with st := .fresh } = { t with st := .fresh })
      (st : (∃ out, t.resp = some ⟨.ok, out⟩) → u.st = t.st) : SameButForSt (.next t) (.next u)
  | faulted (f : Fault) : SameButForSt (.fault f) (.fault f)
  | refused (r : Refusal) : SameButForSt (.refused r) (.refused r)

namespace SameButForSt

theorem refl (o : Host.Outcome State Fault Refusal) : SameButForSt o o := by
  cases o with
  | next t => exact answered rfl rfl fun _ => rfl
  | fault f => exact faulted f
  | refused r => exact refused r

theorem raise {k : Status} (hk : k ≠ .ok) (s : State) :
    SameButForSt (raise k { s with st := .fresh }) (raise k { s with st := .active }) :=
  answered rfl rfl fun ⟨_, hok⟩ => absurd (congrArg Response.status (Option.some.inj hok)) hk

theorem framed {n : Nat} {body : State → Host.Outcome State Fault Refusal} {s : State}
    (h : SameButForSt (body { s with st := .fresh }) (body { s with st := .active })) :
    SameButForSt (framed n body { s with st := .fresh })
      (framed n body { s with st := .active }) := by
  unfold Machine.framed
  split
  · exact h
  · exact refused _

/-- UPDATE feeds alike in Fresh and in Active, and ends in Active from both. -/
theorem updateContext (n : Nat) (s : State) :
    SameButForSt (updateContext n { s with st := .fresh })
      (updateContext n { s with st := .active }) := by
  have hfeed (x : Lifecycle) : feed s.din { s with st := x } =
      (feed s.din s).map { s with st := x }.withFed := feed_eq_map_of_agree _ rfl rfl rfl rfl
  unfold Machine.updateContext
  split
  · exact raise (by decide) s
  · simp only [hfeed .fresh, hfeed .active]
    cases feed s.din s with
    | error f => exact faulted f
    | ok u => exact refl _

/-- FINALIZE pads alike in Fresh and in Active, and ends in Finalized from both. -/
theorem finalizeContext (s : State) :
    SameButForSt (finalizeContext { s with st := .fresh })
      (finalizeContext { s with st := .active }) := by
  have hfeed (x : Lifecycle) (data : List Byte) : feed data { s with st := x } =
      (feed data s).map { s with st := x }.withFed := feed_eq_map_of_agree _ rfl rfl rfl rfl
  unfold Machine.finalizeContext padAndCompress
  by_cases hb : s.buflen.toNat < blockBytes s.alg
  · simp only [if_pos hb, hfeed .fresh, hfeed .active]
    cases feed (padString s.alg s.buflen.toNat s.len.toNat) s with
    | error f => exact faulted f
    | ok u => exact refl _
  · simp only [if_neg hb]
    exact faulted _

theorem exec (i : Instr) (s : State) :
    SameButForSt (exec i { s with st := .fresh }) (exec i { s with st := .active }) := by
  cases i with
  | newMd5 | newSha1 | newSha224 | newSha256 | newSha384 | newSha512 =>
    exact refl (newSupported _ s)
  | update n => exact framed (updateContext n s)
  | finalize => exact framed (finalizeContext s)
  | formatRaw | formatHex => exact framed (raise (by decide) s)
  | _ => exact framed (raise (by decide) s)

end SameButForSt

theorem countBits_zero (s : State) : countBits 0 s = { s with st := .active } := by
  simp [countBits]

/-- Settles O20: the feed of nothing, and the outcomes of each command in the two states, one by
one the same. -/
theorem updateOfNothingOnlyActivates : Obligations.UpdateOfNothingOnlyActivates := by
  refine ⟨rfl, fun s ho hd hl => ?_, fun i s => ?_⟩
  · have hfeed : feed s.din s = .ok s := by rw [hd, feed_nil]
    have hexec := execUpdate_feeds ho (by simpa [hd] using hl) hfeed
    rw [hd, List.length_nil, countBits_zero] at hexec
    exact hexec
  · have hsame := SameButForSt.exec i s
    generalize exec i { s with st := .fresh } = x at hsame ⊢
    generalize exec i { s with st := .active } = y at hsame ⊢
    cases hsame with
    | @answered t u hresp hrest hst =>
      refine ⟨fun _ h => ?_, fun _ _ => ⟨t, rfl⟩, by simp, by simp⟩
      obtain rfl := Host.Outcome.next.inj h
      exact ⟨u, rfl, hresp, hrest, hst⟩
    | faulted f => simp
    | refused r => simp

/-! ### The serialisation of the hash words (R203) -/

/-- A run of pieces of one length, sliced at piece `i`. -/
theorem slice_flatMap_range {f : Nat → List Byte} {k n i : Nat} (hf : ∀ j, (f j).length = k)
    (hi : i < n) : slice ((List.range n).flatMap f) (i * k) k = f i := by
  have hsum (m : Nat) (hm : m ≤ n) :
      ((((List.range n).map f).map List.length).take m).sum = m * k := by
    have hlen : ((List.range n).map f).map List.length = List.replicate n k := by
      simp [List.eq_replicate_iff, hf]
    rw [hlen, List.take_replicate, Nat.min_eq_left hm, List.sum_replicate, smul_eq_mul]
  have hpiece := List.drop_take_succ_flatten_eq_getElem ((List.range n).map f) i (by simpa using hi)
  rw [hsum _ hi, hsum _ hi.le, List.drop_take, Nat.succ_mul, Nat.add_sub_cancel_left] at hpiece
  simpa [slice, List.flatMap_def] using hpiece

@[simp] theorem length_wordBytes (a : Alg) (v : Word64) :
    (wordBytes a v).length = wordBits a / 8 := by
  cases a <;> simp [wordBytes, wordBits]

theorem length_serialise (a : Alg) (h : HashRegs) :
    (serialise a h).length = hashWords a * (wordBits a / 8) := by
  simp [serialise, List.length_flatMap]

theorem slice_serialise (a : Alg) (h : HashRegs) {i : Fin Config.nhmax} (hi : i.val < hashWords a) :
    slice (serialise a h) (i.val * (wordBits a / 8)) (wordBits a / 8) = wordBytes a h[i] := by
  rw [serialise, slice_flatMap_range (fun _ => length_wordBytes a _) hi]
  simp

/-- The bytes of a hash word carry its low `w` bits in the byte order of the algorithm. -/
theorem value_wordBytes (a : Alg) (v : Word64) :
    (if a = .md5 then le (wordBytes a v) else be (wordBytes a v)) = v.toNat % 2 ^ wordBits a := by
  cases a <;> simp [wordBytes, wordBits, le_toLe, be_toBe]

/-- All but the two truncated digests are as long as the serialisation (R8). -/
theorem digestBytes_of_untruncated {a : Alg} (h224 : a ≠ .sha224) (h384 : a ≠ .sha384) :
    digestBytes a = hashWords a * (wordBits a / 8) := by
  cases a with
  | sha224 => exact absurd rfl h224
  | sha384 => exact absurd rfl h384
  | _ => rfl

/-- Settles O39: the serialisation is pieces of one length, each a hash word's bytes. -/
theorem serialisationAndTruncation : Obligations.SerialisationAndTruncation := by
  intro a h
  refine ⟨length_serialise a h, fun i hi => ?_, rfl, length_digestOf a h, fun h224 h384 => ?_⟩
  · rw [slice_serialise a h hi]
    exact value_wordBytes a h[i]
  · rw [digestOf, digestBytes_of_untruncated h224 h384, ← length_serialise a h, List.take_length]

/-- Settles O40: SHA224 and SHA256 share block size, padding, compression and serialisation, and so
do SHA384 and SHA512. -/
theorem truncatedDigestsAreOfTheFullComputation :
    Obligations.TruncatedDigestsAreOfTheFullComputation :=
  fun _ => ⟨rfl, rfl⟩

/-! ### FINALIZE (R200, R204, R205) -/

theorem getElem_writeDigest_of_le (old : Vector Byte Config.dmax) {bytes : List Byte}
    {i : Fin Config.dmax} (h : bytes.length ≤ i.val) : (writeDigest old bytes)[i] = old[i] := by
  simp [writeDigest, h]

/-- Settles O37: padding is a feed, whose block-wise form and frame give the fields; the latch
writes the digest and nothing behind it. -/
theorem finalizePadsLatchesAndAnswers : Obligations.FinalizePadsLatchesAndAnswers := by
  intro s ho hd hb hwf
  obtain ⟨u, hu, hfeed, hbuflen⟩ := padAndCompress_succeeds hb
  have hf := feed_frame hfeed
  have hheld : (latchDigest u).heldDigest = digestOf s.alg u.h := by
    rw [heldDigest_latchDigest, hf.alg]
  refine ⟨_, execFinalize_pads hd ho hu, rfl, hf.alg, (feed_blockwise hfeed hwf hb).1, hbuflen,
    hf.len, ?_, hheld, congrArg (fun out => some (Response.mk .ok out)) hheld, fun i hi => ?_,
    fun x hx => feed_bufByte_other hfeed hb hx, hf.host, rfl⟩
  · rw [← hf.alg]
    exact toNat_digestBytes u.alg
  · rw [← hf.digest]
    exact getElem_writeDigest_of_le u.digest (by rwa [length_digestOf, hf.alg])

theorem Holds.buflen_lt {s : State} {msg : List Byte} (h : Holds s msg) :
    s.buflen.toNat < blockBytes s.alg := h.buflen_eq ▸ Nat.mod_lt _ (blockBytes_pos _)

/-- Padding the tail continues the fold of the message held: the padded message from the IV. -/
theorem Holds.digestOf_padded {s : State} {msg : List Byte} (h : Holds s msg) :
    digestOf s.alg (absorb s.alg s.h (s.tail ++ padString s.alg s.buflen.toNat s.len.toNat)) =
      messageDigest s.alg msg := by
  rw [messageDigest, paddedMessage, absorb_append s.alg (initialHash s.alg), ← h.hash_eq,
    ← h.tail_eq, ← h.buflen_eq, h.len_eq]

/-- Settles O38: FINALIZE answers the digest of its padded fold, which is that of the message. -/
theorem finalizeAnswersTheMessageDigest : Obligations.FinalizeAnswersTheMessageDigest := by
  intro s msg h hwf hd
  obtain ⟨t, ht, hst, -, hhash, -, -, -, hheld, hresp, -⟩ :=
    finalizePadsLatchesAndAnswers s h.is_open hd h.buflen_lt hwf
  rw [hhash, h.digestOf_padded] at hheld hresp
  exact ⟨t, ht, hst, hresp, hheld⟩

/-! ### Issuing the commands of a digest -/

theorem issue_commandOf {i : Instr} (h : i.wf = true) (s : State) :
    issue (commandOf i) s = exec i { s with din := [] } :=
  issue_eq (c := commandOf i) (decodeOfEncodeIsTheCommand i h) s

theorem issue_new (a : Alg) (s : State) :
    issue (commandOf (newInstr a)) s = .next ((newContext a s).answer ⟨.ok, []⟩) := by
  rw [issue_commandOf (by cases a <;> rfl)]
  exact newCreatesAFreshContext a _ rfl

theorem issue_unsupported {i : Instr} (hi : i ∈ unsupportedInstrs) (s : State) :
    issue (commandOf i) s = .next (s.answer ⟨.unsupportedAlgorithm, []⟩) := by
  have hwf : ∀ j ∈ unsupportedInstrs, j.wf = true := by decide
  rw [issue_commandOf (hwf i hi)]
  exact unsupportedIdsRaiseUnsupportedAlgorithm.1 i hi _ rfl

theorem issue_finalize {s : State} {msg : List Byte} (h : Holds s msg) (hwf : Memory.wf s.buf) :
    ∃ t, issue (commandOf .finalize) s = .next t ∧ t.st = .finalized ∧
      t.resp = some ⟨.ok, messageDigest s.alg msg⟩ ∧ t.heldDigest = messageDigest s.alg msg := by
  rw [issue_commandOf rfl]
  exact finalizeAnswersTheMessageDigest _ msg { h with } hwf rfl

theorem issue_format (m : Mode) {s : State} (h : s.st = .finalized) :
    issue (commandOf (formatInstr m)) s = .next (s.answer ⟨.ok, render m s.heldDigest⟩) := by
  rw [issue_commandOf (by cases m <;> rfl)]
  cases m <;> exact formatDigest_renders (s := { s with din := [] }) _ rfl h

/-- A feed never touches the payload on DIN. -/
theorem feed_withDin {data : List Byte} {s u : State} (h : feed data s = .ok u) (p : List Byte) :
    feed data { s with din := p } = .ok { u with din := p } := by
  obtain ⟨hst, halg, hlen, hdigest, hdlen, hhost, -, hresp⟩ := feed_frame h
  rw [feed_eq_of_agree (t := { s with din := p }) h rfl rfl rfl rfl]
  simp only [State.withFed, hst, halg, hlen, hdigest, hdlen, hhost, hresp]

section
variable {s u : State} {x : List Byte}

theorem issue_updateCommand (hx : x.length < 2 ^ Config.cntw) (s : State) :
    issue (updateCommand x) s = execUpdate x.length { s with din := x } :=
  have hwf : (Instr.update x.length).wf = true := decide_eq_true hx
  issue_eq (c := updateCommand x) (decodeOfEncodeIsTheCommand _ hwf) s

theorem issue_updateCommand_feeds (hx : x.length < 2 ^ Config.cntw) (ho : s.isOpen = true)
    (hl : s.len.toNat + 8 * x.length ≤ maxBits s.alg) (hu : feed x s = .ok u) :
    issue (updateCommand x) s = .next ((countBits x.length u).answer ⟨.ok, []⟩) :=
  (issue_updateCommand hx s).trans
    (execUpdate_feeds (s := { s with din := x }) (u := { u with din := x }) ho hl
      (feed_withDin hu x))

theorem issue_updateCommand_overflows (hx : x.length < 2 ^ Config.cntw) (ho : s.isOpen = true)
    (hl : maxBits s.alg < s.len.toNat + 8 * x.length) :
    issue (updateCommand x) s = .next (s.answer ⟨.lengthOverflow, []⟩) :=
  (issue_updateCommand hx s).trans (execUpdate_overflows (s := { s with din := x }) ho hl)

end

/-! ### Runs in which every response is OK (R206, R270) -/

/-- The commands lead from the first state to the second, and every response on the way is OK. -/
inductive OkRun : List Command → State → State → Prop
  | nil (s : State) : OkRun [] s s
  | cons {c : Command} {cs : List Command} {s t u : State} (issued : issue c s = .next t)
      (ok : t.lastFailed = false) (rest : OkRun cs t u) : OkRun (c :: cs) s u

namespace OkRun
variable {c : Command} {cs ds : List Command} {s t u : State}

theorem single (h : issue c s = .next t) (hok : t.lastFailed = false) : OkRun [c] s t :=
  cons h hok (nil t)

theorem append (h : OkRun cs s t) (k : OkRun ds t u) : OkRun (cs ++ ds) s u := by
  induction h with
  | nil => exact k
  | cons issued ok _ ih => exact cons issued ok (ih k)

theorem runCommands_eq (h : OkRun cs s t) : runCommands cs s = .next t := by
  induction h with
  | nil => rfl
  | cons issued _ _ ih => rw [runCommands, issued]; exact ih

/-- The run that stops at an error goes on past commands that answer OK. -/
theorem runUntilError_append (h : OkRun cs s t) (ds : List Command) :
    runUntilError (cs ++ ds) s = runUntilError ds t := by
  induction h with
  | nil => rfl
  | cons issued ok _ ih => simpa [runUntilError, issued, ok] using ih

theorem runUntilError_eq (h : OkRun cs s t) : runUntilError cs s = .next t := by
  simpa [runUntilError] using h.runUntilError_append []

end OkRun

theorem lastFailed_of_resp_ok {s : State} {out : List Byte} (h : s.resp = some ⟨.ok, out⟩) :
    s.lastFailed = false := by
  rw [State.lastFailed, h]
  rfl

/-! ### Cutting a message into UPDATEs (R199) -/

section
variable {s u v : State} {n : Nat} {r : Response}

/-- The count of two UPDATEs is the count of their joined payload. -/
theorem countBits_countBits_withFed (hf : FeedFrame u v) (m : Nat) (q : Response) :
    (countBits m (((countBits n u).answer r).withFed v)).answer q =
      (countBits (n + m) v).answer q := by
  obtain ⟨-, halg, hlen, hdigest, hdlen, hhost, -, -⟩ := hf
  simp only [State.answer, countBits, State.withFed, halg, hlen, hdigest, hdlen, hhost, Nat.mul_add,
    BitVec.ofNat_add, BitVec.add_assoc]

/-- An accepted UPDATE leaves `BUFLEN` below the block size again. -/
theorem buflen_countBits_lt {x : List Byte} (hb : s.buflen.toNat < blockBytes s.alg)
    (hu : feed x s = .ok u) :
    ((countBits n u).answer r).buflen.toNat < blockBytes ((countBits n u).answer r).alg := by
  simp only [answer_buflen, countBits_buflen, answer_alg, countBits_alg]
  rw [feed_buflen hu hb, (feed_frame hu).alg]
  exact Nat.mod_lt _ (blockBytes_pos _)

end

/-- However a message is cut, the UPDATEs leave the one feed of all its bytes, counted (R199). -/
theorem okRun_updates {xs : List (List Byte)} {s u : State} (hne : xs ≠ []) (ho : s.isOpen = true)
    (hb : s.buflen.toNat < blockBytes s.alg) (hx : ∀ x ∈ xs, x.length < 2 ^ Config.cntw)
    (hl : s.len.toNat + 8 * xs.flatten.length ≤ maxBits s.alg) (hu : feed xs.flatten s = .ok u) :
    OkRun (xs.map updateCommand) s ((countBits xs.flatten.length u).answer ⟨.ok, []⟩) := by
  induction xs generalizing s u with
  | nil => exact absurd rfl hne
  | cons x xs ih =>
    obtain ⟨hx0, hxs⟩ := List.forall_mem_cons.mp hx
    rw [List.flatten_cons, List.length_append] at hl
    obtain ⟨v, hv, -⟩ := feed_succeeds x hb
    have hissue := issue_updateCommand_feeds hx0 ho (by omega) hv
    rw [List.flatten_cons, feed_append_ok hv] at hu
    by_cases hnil : xs = []
    · subst hnil
      obtain rfl : v = u := by simpa using hu
      simpa using OkRun.single hissue rfl
    · have hlen : ((countBits x.length v).answer ⟨.ok, []⟩).len.toNat =
          s.len.toNat + 8 * x.length := toNat_countBits_len_of_feed hv (by omega)
      have hrest := ih hnil rfl (buflen_countBits_lt hb hv) hxs
        (by rw [hlen, answer_alg, countBits_alg, (feed_frame hv).alg]; omega)
        (feed_eq_of_agree hu rfl rfl rfl rfl)
      rw [countBits_countBits_withFed (feed_frame hu), ← List.length_append] at hrest
      exact .cons hissue rfl hrest

/-- Settles O21: both cuttings leave the feed of the same bytes. -/
theorem chunkingDoesNotMatter : Obligations.ChunkingDoesNotMatter := by
  intro s xs ys ho hb hxne hyne hflat hx hy hl
  obtain ⟨u, hu, -⟩ := feed_succeeds xs.flatten hb
  have hrunx := okRun_updates hxne ho hb hx hl hu
  rw [hflat] at hl hu hrunx
  exact ⟨_, hrunx.runCommands_eq, (okRun_updates hyne ho hb hy hl hu).runCommands_eq, rfl⟩

/-! ### Whole computations (R206) -/

/-- Any cutting into UPDATEs appends the bytes to the message a context holds. -/
theorem Holds.exists_okRun {s : State} {msg : List Byte} {xs : List (List Byte)} (h : Holds s msg)
    (hwf : Memory.wf s.buf) (hx : ∀ x ∈ xs, x.length < 2 ^ Config.cntw)
    (hl : s.len.toNat + 8 * xs.flatten.length ≤ maxBits s.alg) :
    ∃ t, OkRun (xs.map updateCommand) s t ∧ t.alg = s.alg ∧ Memory.wf t.buf ∧
      Holds t (msg ++ xs.flatten) := by
  rcases eq_or_ne xs [] with rfl | hne
  · exact ⟨s, .nil s, rfl, hwf, by simpa using h⟩
  · obtain ⟨u, hu, -⟩ := feed_succeeds xs.flatten h.buflen_lt
    have hholds := Holds.countBits (s := { s with din := xs.flatten }) { h with } hwf hl
      (feed_withDin hu _) ⟨.ok, []⟩
    exact ⟨_, okRun_updates hne h.is_open h.buflen_lt hx hl hu, (feed_frame hu).alg,
      feed_buf_wf (t := u) hu hwf, hholds⟩

/-- From NEW on, any cutting into UPDATEs makes the context hold the message. -/
theorem exists_okRun_holds (a : Alg) (s : State) {xs : List (List Byte)} (hwf : Memory.wf s.buf)
    (hx : ∀ x ∈ xs, x.length < 2 ^ Config.cntw) (hl : 8 * xs.flatten.length ≤ maxBits a) :
    ∃ t, OkRun ([commandOf (newInstr a)] ++ xs.map updateCommand) s t ∧ t.alg = a ∧
      Memory.wf t.buf ∧ Holds t xs.flatten := by
  obtain ⟨t, hrun, halg, htwf, hholds⟩ :=
    (holds_newContext a s ⟨.ok, []⟩).exists_okRun hwf hx (by simpa using hl)
  exact ⟨t, .cons (issue_new a s) rfl hrun, halg, htwf, hholds⟩

/-- NEW, any cutting of a message into UPDATEs, and FINALIZE answer its digest and hold it. -/
theorem exists_okRun_finalized (a : Alg) (s : State) {xs : List (List Byte)}
    (hwf : Memory.wf s.buf) (hx : ∀ x ∈ xs, x.length < 2 ^ Config.cntw)
    (hl : 8 * xs.flatten.length ≤ maxBits a) :
    ∃ t, OkRun ([commandOf (newInstr a)] ++ xs.map updateCommand ++ [commandOf .finalize]) s t ∧
      t.st = .finalized ∧ t.resp = some ⟨.ok, messageDigest a xs.flatten⟩ ∧
      t.heldDigest = messageDigest a xs.flatten := by
  obtain ⟨c, hrun, rfl, hcwf, hholds⟩ := exists_okRun_holds a s hwf hx hl
  obtain ⟨t, hissue, hst, hresp, hheld⟩ := issue_finalize hholds hcwf
  exact ⟨t, hrun.append (.single hissue (lastFailed_of_resp_ok hresp)), hst, hresp, hheld⟩

/-- FORMAT after FINALIZE answers the digest in its mode. -/
theorem exists_okRun_formatted (a : Alg) (m : Mode) (s : State) {xs : List (List Byte)}
    (hwf : Memory.wf s.buf) (hx : ∀ x ∈ xs, x.length < 2 ^ Config.cntw)
    (hl : 8 * xs.flatten.length ≤ maxBits a) :
    ∃ t, OkRun ([commandOf (newInstr a)] ++ xs.map updateCommand ++
        [commandOf .finalize, commandOf (formatInstr m)]) s t ∧
      t.resp = some ⟨.ok, render m (messageDigest a xs.flatten)⟩ := by
  obtain ⟨t, hrun, hst, -, hheld⟩ := exists_okRun_finalized a s hwf hx hl
  have hall := hrun.append (.single (issue_format m hst) rfl)
  rw [List.append_assoc] at hall
  exact ⟨_, hall, by rw [answer_resp, hheld]⟩

/-- Settles O54: the run up to FINALIZE and the run up to FORMAT hex, every response OK. -/
theorem anyChunkingGivesTheMessageDigest : Obligations.AnyChunkingGivesTheMessageDigest := by
  intro a s xs hwf hx hl
  obtain ⟨t, hrun, -, hresp, -⟩ := exists_okRun_finalized a s hwf hx hl
  obtain ⟨u, hrunHex, hhex⟩ := exists_okRun_formatted a .hex s hwf hx hl
  exact ⟨⟨t, hrun.runCommands_eq, hresp⟩, u, hrunHex.runCommands_eq, hhex⟩

/-- Each slice of a long UPDATE fits the count of a command word. -/
theorem length_lt_of_mem_chunks {data x : List Byte} (h : x ∈ chunks data) :
    x.length < 2 ^ Config.cntw :=
  Nat.lt_of_le_pred (Nat.two_pow_pos _) (length_of_mem_chunks h)

/-- Settles O55: the slices of the data are one cutting of it, and no response stops the run. -/
theorem oneShotDigestAnswersTheMessageDigest :
    Obligations.OneShotDigestAnswersTheMessageDigest := by
  intro a m data s hwf hl
  obtain ⟨t, hrun, hresp⟩ := exists_okRun_formatted a m s (xs := chunks data) hwf
    (fun _ => length_lt_of_mem_chunks) (by rwa [flatten_chunks])
  rw [flatten_chunks] at hresp
  exact ⟨t, hrun.runUntilError_eq, hresp⟩

theorem runUntilError_of_failed {c : Command} {s t : State} (h : issue c s = .next t)
    (hf : t.lastFailed = true) (cs : List Command) : runUntilError (c :: cs) s = .next t := by
  simp [runUntilError, h, hf]

/-- UPDATEs that go past the length limit stop at the one that does, the context still open. -/
theorem runUntilError_updates_overflow {xs : List (List Byte)} {s : State} (ho : s.isOpen = true)
    (hb : s.buflen.toNat < blockBytes s.alg) (hx : ∀ x ∈ xs, x.length < 2 ^ Config.cntw)
    (hle : s.len.toNat ≤ maxBits s.alg)
    (hl : maxBits s.alg < s.len.toNat + 8 * xs.flatten.length) (cs : List Command) :
    ∃ t, runUntilError (xs.map updateCommand ++ cs) s = .next t ∧
      t.resp = some ⟨.lengthOverflow, []⟩ ∧ t.isOpen = true := by
  induction xs generalizing s with
  | nil => exact absurd hl (by simpa using hle)
  | cons x xs ih =>
    obtain ⟨hx0, hxs⟩ := List.forall_mem_cons.mp hx
    rw [List.flatten_cons, List.length_append] at hl
    rcases Nat.lt_or_ge (maxBits s.alg) (s.len.toNat + 8 * x.length) with hover | hfits
    · have hissue := issue_updateCommand_overflows hx0 ho hover
      exact ⟨_, runUntilError_of_failed hissue rfl _, rfl, ho⟩
    · obtain ⟨u, hu, -⟩ := feed_succeeds x hb
      have hlen : ((countBits x.length u).answer ⟨.ok, []⟩).len.toNat =
          s.len.toNat + 8 * x.length := toNat_countBits_len_of_feed hu hfits
      have halg : ((countBits x.length u).answer ⟨.ok, []⟩).alg = s.alg := (feed_frame hu).alg
      obtain ⟨t, ht, hresp, hopen⟩ := ih rfl (buflen_countBits_lt hb hu) hxs
        (by rwa [hlen, halg]) (by rw [hlen, halg]; omega)
      have hrun := OkRun.single (issue_updateCommand_feeds hx0 ho hfits hu) rfl
      exact ⟨t, (hrun.runUntilError_append _).trans ht, hresp, hopen⟩

theorem digestOnce_eq (new : Instr) (m : Mode) (data : List Byte) (s : State) :
    digestOnce new m data s = runUntilError ([commandOf new] ++ (updateCommands data ++
      [commandOf .finalize, commandOf (formatInstr m)])) s := by
  rw [digestOnce, digestCommands, List.append_assoc]

/-- Settles O60: NEW with an unsupported id is the first error, and otherwise the UPDATE that passes
the limit. -/
theorem oneShotDigestStopsAtTheFirstError : Obligations.OneShotDigestStopsAtTheFirstError := by
  refine ⟨fun i hi m data s => ?_, fun a m data s hl => ?_⟩
  · rw [digestOnce_eq, List.singleton_append]
    exact runUntilError_of_failed (issue_unsupported hi s) rfl _
  · have hnew := OkRun.single (issue_new a s) rfl
    rw [digestOnce_eq, hnew.runUntilError_append]
    obtain ⟨t, ht, hresp, hopen⟩ := runUntilError_updates_overflow (xs := chunks data)
      (s := (newContext a s).answer ⟨.ok, []⟩) rfl (blockBytes_pos a)
      (fun _ => length_lt_of_mem_chunks) (Nat.zero_le _) (by simpa [flatten_chunks] using hl)
      [commandOf .finalize, commandOf (formatInstr m)]
    exact ⟨t, ht, hresp, isOpen_iff.mp hopen⟩

end Sys2Proof.Machine

/-! The family 46_formatter.md: FORMAT in Finalized, the hex rendering and its inverse (R220 to
R226). -/

namespace Sys2Proof.Machine

/-! ### FORMAT (R220, R221, R225) -/

/-- Settles O41: FORMAT in Finalized answers the held digest in its mode, in both modes. -/
theorem formatAnswersTheHeldDigest : Obligations.FormatAnswersTheHeldDigest :=
  fun _ hst hd => ⟨formatDigest_renders .raw hd hst, formatDigest_renders .hex hd hst⟩

/-! ### The hex digits (R223) -/

/-- Settles O43: the sixteen digits, computed. -/
theorem hexDigitsAreLowercaseAscii : Obligations.HexDigitsAreLowercaseAscii := by
  unfold Obligations.HexDigitsAreLowercaseAscii
  decide

theorem hexValue_hexDigit : ∀ v : BitVec 4, hexValue (hexDigit v) = some v := by decide

theorem hexDigit_ofNat_digit :
    ∀ n < 10, hexDigit (BitVec.ofNat 4 n) = BitVec.ofNat 8 (0x30 + n) := by
  decide

theorem hexDigit_ofNat_letter :
    ∀ n < 6, hexDigit (BitVec.ofNat 4 (n + 10)) = BitVec.ofNat 8 (0x61 + n) := by
  decide

theorem hexDigit_of_hexValue {c : Byte} {v : BitVec 4} (h : hexValue c = some v) :
    hexDigit v = c := by
  rw [hexValue] at h
  split_ifs at h with hdigit hletter <;> cases h
  · rw [hexDigit_ofNat_digit _ (by omega), Nat.add_sub_cancel' hdigit.1, BitVec.ofNat_toNat,
      BitVec.setWidth_eq]
  · rw [hexDigit_ofNat_letter _ (by omega), Nat.add_sub_cancel' hletter.1, BitVec.ofNat_toNat,
      BitVec.setWidth_eq]

/-! ### A byte and its two nibbles (R222) -/

/-- The two hex characters of a byte in arithmetic form. -/
theorem hexByte_eq (b : Byte) :
    hexByte b = [hexDigit (BitVec.ofNat 4 (b.toNat / 16)),
      hexDigit (BitVec.ofNat 4 (b.toNat % 16))] := by
  have hhigh : b.extractLsb' 4 4 = BitVec.ofNat 4 (b.toNat / 16) := by
    rw [BitVec.extractLsb', Nat.shiftRight_eq_div_pow]
  have hlow : b.extractLsb' 0 4 = BitVec.ofNat 4 (b.toNat % 16) :=
    BitVec.eq_of_toNat_eq (by simp)
  rw [hexByte, hhigh, hlow]

theorem ofNat_nibbles (b : Byte) :
    BitVec.ofNat 8 (16 * (BitVec.ofNat 4 (b.toNat / 16)).toNat +
      (BitVec.ofNat 4 (b.toNat % 16)).toNat) = b := by
  bv_omega

theorem hexByte_ofNat (hi lo : BitVec 4) :
    hexByte (BitVec.ofNat 8 (16 * hi.toNat + lo.toNat)) = [hexDigit hi, hexDigit lo] := by
  have hfits : (16 * hi.toNat + lo.toNat) % 2 ^ 8 = 16 * hi.toNat + lo.toNat := by omega
  have hdiv : (16 * hi.toNat + lo.toNat) / 16 = hi.toNat := by omega
  have hmod : (16 * hi.toNat + lo.toNat) % 16 = lo.toNat := by omega
  rw [hexByte_eq, BitVec.toNat_ofNat, hfits, hdiv, hmod, BitVec.ofNat_toNat, BitVec.ofNat_toNat,
    BitVec.setWidth_eq, BitVec.setWidth_eq]

theorem hexBytes_cons (b : Byte) (d : List Byte) : hexBytes (b :: d) = hexByte b ++ hexBytes d :=
  List.flatMap_cons

theorem hexBytes_getD {d : List Byte} {i : Nat} (h : i < d.length) :
    (hexBytes d).getD (2 * i) 0 = hexDigit (BitVec.ofNat 4 ((d.getD i 0).toNat / 16)) ∧
    (hexBytes d).getD (2 * i + 1) 0 = hexDigit (BitVec.ofNat 4 ((d.getD i 0).toNat % 16)) := by
  induction d generalizing i with
  | nil => cases h
  | cons b d ih =>
    rw [hexBytes_cons, hexByte_eq]
    cases i with
    | zero => exact ⟨rfl, rfl⟩
    | succ i => exact ih (Nat.lt_of_succ_lt_succ h)

/-- Settles O42: two characters a byte, by induction on the bytes. -/
theorem hexRenderingOfEachByte : Obligations.HexRenderingOfEachByte :=
  fun d => ⟨length_hexBytes d, fun _ => hexBytes_getD⟩

/-! ### The round trips (R226) -/

theorem unhex_hexDigit_cons_cons (hi lo : BitVec 4) (s : List Byte) :
    unhex (hexDigit hi :: hexDigit lo :: s) =
      (unhex s).map (BitVec.ofNat 8 (16 * hi.toNat + lo.toNat) :: ·) := by
  rw [unhex, hexValue_hexDigit, hexValue_hexDigit]
  cases unhex s <;> rfl

theorem exists_of_unhex_cons_cons {c₁ c₂ : Byte} {s d : List Byte}
    (h : unhex (c₁ :: c₂ :: s) = some d) :
    ∃ hi lo d', hexDigit hi = c₁ ∧ hexDigit lo = c₂ ∧ unhex s = some d' ∧
      d = BitVec.ofNat 8 (16 * hi.toNat + lo.toNat) :: d' := by
  rw [unhex] at h
  split at h
  case h_1 hi lo d' h₁ h₂ hs =>
    exact ⟨hi, lo, d', hexDigit_of_hexValue h₁, hexDigit_of_hexValue h₂, hs,
      (Option.some.inj h).symm⟩
  case h_2 => cases h

theorem unhex_hexBytes (d : List Byte) : unhex (hexBytes d) = some d := by
  induction d with
  | nil => rfl
  | cons b d ih =>
    rw [hexBytes_cons, hexByte_eq, List.cons_append, List.cons_append, List.nil_append,
      unhex_hexDigit_cons_cons, ih, ofNat_nibbles, Option.map_some]

theorem hexBytes_of_unhex : ∀ {s d : List Byte}, unhex s = some d → hexBytes d = s
  | [], _, h => by cases h; rfl
  | [_], _, h => by cases h
  | _ :: _ :: s, _, h => by
    obtain ⟨hi, lo, d, rfl, rfl, hs, rfl⟩ := exists_of_unhex_cons_cons h
    rw [hexBytes_cons, hexByte_ofNat, hexBytes_of_unhex hs, List.cons_append, List.cons_append,
      List.nil_append]

/-- Settles O44: byte by byte, for `hexDigit` and `hexValue` undo each other. -/
theorem hexRoundTrips : Obligations.HexRoundTrips :=
  ⟨unhex_hexBytes, fun _ _ => hexBytes_of_unhex⟩

end Sys2Proof.Machine

/-! The families 60_exceptions.md and 70_reset_and_hazards.md, and the digests the source prints: the
status of every command and what an error writes (R236, R240), waiting and RESET (R249, R260),
refused pairs (R266), and the observation of a run (R270). -/

namespace Sys2Proof.Machine

/-! ### Waiting and RESET (R249, R260, R261) -/

theorem step_of_no_input {s : State} (hh : s.host = []) : step s = .next s := by
  simp [step, hh]

theorem step_of_reset {s : State} {rest : List HostInput} (hh : s.host = .reset :: rest) :
    step s = .next (takeReset rest) := by
  simp [step, hh]

/-- Settles O7: the arm of the step for an empty list of inputs. -/
theorem stepWithNoInputChangesNothing : Obligations.StepWithNoInputChangesNothing :=
  fun _ => step_of_no_input

/-- Settles O9: the step of a RESET, whose fields are the reset state's but for the host's inputs. -/
theorem resetInputReturnsToIdle : Obligations.ResetInputReturnsToIdle := by
  intro s rest hh
  obtain ⟨hst, halg, hbuflen, hlen, hdlen, hport⟩ := resetStateHasTheStatedValues
  have hport' : statusPort (takeReset rest) = 0x00000000 :=
    (statusPort_agree rfl rfl rfl rfl).trans hport
  exact ⟨takeReset rest, step_of_reset hh, hst, halg, hbuflen, hlen, hdlen, hport', rfl, rfl, rfl⟩

/-! ### What an error writes (R236) -/

/-- A command that answers an error has written its response and nothing else. -/
theorem exec_error {i : Instr} {s t : State} {r : Response} (h : exec i s = .next t)
    (hr : t.resp = some r) (herr : r.status ≠ .ok) : t = s.answer ⟨r.status, []⟩ := by
  rcases (exec_cases h).2 with ⟨k, -, rfl⟩ | ⟨a, -, rfl⟩ | ⟨n, u, -, -, -, -, rfl⟩ |
    ⟨u, -, -, -, rfl⟩ | ⟨m, -, -, rfl⟩ <;> cases hr
  · rfl
  all_goals exact absurd rfl herr

/-- An illegal word that is answered is answered with IllegalCommand (R80). -/
theorem step_illegal_next {s t : State} {c : Command} {rest : List HostInput} {e : IllegalWord}
    (hh : s.host = .command c :: rest) (hd : decode c.word = .error e) (h : step s = .next t) :
    t = (s.present c.payload rest).answer ⟨.illegalCommand, []⟩ :=
  respond_next (framed_next ((step_of_illegal hh hd).symm.trans h)).2

/-- Settles O46: an error of a command, and of a step that presents one or an illegal word. -/
theorem errorsWriteNothing : Obligations.ErrorsWriteNothing := by
  refine ⟨fun i s t r => exec_error, fun s t c rest r hh hstep hr herr => ?_⟩
  cases hd : decode c.word with
  | ok i => exact exec_error ((step_of_decode hh hd).symm.trans hstep) hr herr
  | error e =>
    obtain rfl := step_illegal_next hh hd hstep
    cases hr
    rfl

/-! ### The status of every command (R231 to R234, R240) -/

section
variable {s t : State} {r : Response}

theorem execUpdate_status {n : Nat} (h : execUpdate n s = .next t) (hr : t.resp = some r) :
    r.status = if s.st = .idle ∨ s.st = .finalized then .invalidState
      else if maxBits s.alg < s.len.toNat + 8 * n then .lengthOverflow else .ok := by
  obtain ⟨-, ⟨hs, rfl⟩ | ⟨hs, hl, rfl⟩ | ⟨hs, hl, u, -, rfl⟩⟩ := execUpdate_cases h <;> cases hr
  · rw [if_pos hs]
  · rw [if_neg (by rcases hs with hs | hs <;> simp [hs]), if_pos hl]
  · rw [if_neg (by rcases hs with hs | hs <;> simp [hs]), if_neg (Nat.not_lt.mpr hl)]

theorem execFinalize_status (h : execFinalize s = .next t) (hr : t.resp = some r) :
    r.status = if s.st = .idle ∨ s.st = .finalized then .invalidState else .ok := by
  obtain ⟨-, ⟨hs, rfl⟩ | ⟨hs, u, -, rfl⟩⟩ := execFinalize_cases h <;> cases hr
  · rw [if_pos hs]
  · rw [if_neg (by rcases hs with hs | hs <;> simp [hs])]

theorem formatDigest_status {m : Mode} (h : formatDigest m s = .next t) (hr : t.resp = some r) :
    r.status = if s.st = .finalized then .ok else .invalidState := by
  obtain ⟨-, ⟨hs, rfl⟩ | ⟨hs, rfl⟩⟩ := formatDigest_cases h <;> cases hr
  · rw [if_neg hs]
  · rw [if_pos hs]

theorem exists_newInstr_eq_decodeNew {arg : BitVec 4} (h : arg.toNat < 6) :
    ∃ a, decodeNew arg = newInstr a := by
  have hmem : ∀ arg : BitVec 4, arg.toNat < 6 →
      ∃ a ∈ [Alg.md5, .sha1, .sha224, .sha256, .sha384, .sha512], decodeNew arg = newInstr a := by
    decide
  obtain ⟨a, -, ha⟩ := hmem arg h
  exact ⟨a, ha⟩

theorem exec_decodeNew_status {arg : BitVec 4} (h : exec (decodeNew arg) s = .next t)
    (hr : t.resp = some r) :
    r.status = if 6 ≤ arg.toNat then .unsupportedAlgorithm else .ok := by
  split_ifs with harg
  · rw [exec_of_mem_unsupportedInstrs (decodeNew_mem_unsupportedInstrs harg)] at h
    obtain ⟨-, rfl⟩ := newUnsupported_cases h
    cases hr
    rfl
  · obtain ⟨a, ha⟩ := exists_newInstr_eq_decodeNew (Nat.lt_of_not_le harg)
    obtain rfl := exec_newInstr_next (ha ▸ h)
    cases hr
    rfl

/-- A command is answered with the first cause that applies to its word (R240). -/
theorem exec_status {w : BitVec 32} {i : Instr} (hd : decode w = .ok i) (h : exec i s = .next t)
    (hr : t.resp = some r) : r.status = firstStatus w s := by
  have hlegal : ¬ IllegalFields w := fun hill => by
    obtain ⟨e, he⟩ := exists_decode_error_iff.mpr hill
    cases hd.symm.trans he
  rw [firstStatus, if_neg hlegal]
  rcases decode_cases hd with ⟨arg, rfl, rfl⟩ | ⟨cnt, rfl, rfl⟩ | ⟨rfl, rfl⟩ | ⟨rfl, rfl⟩ |
    ⟨rfl, rfl⟩
  · simpa using exec_decodeNew_status h hr
  · simpa using execUpdate_status h hr
  · simpa using execFinalize_status h hr
  · simpa using formatDigest_status (m := .raw) h hr
  · simpa using formatDigest_status (m := .hex) h hr

end

/-- Settles O45: the pair is answered, and the answer's status is the decoded command's or
IllegalCommand. -/
theorem theFirstApplicableErrorIsReported : Obligations.TheFirstApplicableErrorIsReported := by
  intro s c rest hh hp hb
  obtain ⟨t, r, ht, hr, -⟩ := step_answers hb hh hp
  refine ⟨t, r, ht, hr, ?_⟩
  cases hd : decode c.word with
  | ok i =>
    exact exec_status (s := s.present c.payload rest) hd ((step_of_decode hh hd).symm.trans ht) hr
  | error e =>
    obtain rfl := step_illegal_next hh hd ht
    cases hr
    exact (if_pos (exists_decode_error_iff.mp ⟨e, hd⟩)).symm

/-! ### Refused pairs (R266) -/

section
variable {s : State} {r : Refusal}

theorem respond_ne_refused (k : Status) (out : List Byte) : respond k out s ≠ .refused r :=
  nofun

theorem updateContext_ne_refused (n : Nat) : updateContext n s ≠ .refused r := by
  rw [updateContext]
  split
  · exact respond_ne_refused _ _
  · split
    · exact nofun
    · exact respond_ne_refused _ _

theorem finalizeContext_ne_refused : finalizeContext s ≠ .refused r := by
  rw [finalizeContext]
  split
  · exact nofun
  · exact respond_ne_refused _ _

/-- A framed command whose meaning refuses nothing refuses only a payload of the wrong length. -/
theorem of_framed_refused {n : Nat} {body : State → Host.Outcome State Fault Refusal}
    (hbody : body s ≠ .refused r) (h : framed n body s = .refused r) :
    r = .payloadLength ∧ s.din.length ≠ n := by
  unfold framed at h
  split at h
  · exact absurd h hbody
  · next hn => exact ⟨by cases h; rfl, hn⟩

theorem of_newSupported_refused {a : Alg} (h : newSupported a s = .refused r) :
    r = .payloadLength ∧ s.din.length ≠ 0 := by
  refine of_framed_refused ?_ h
  exact respond_ne_refused _ _

theorem of_newUnsupported_refused (h : newUnsupported s = .refused r) :
    r = .payloadLength ∧ s.din.length ≠ 0 :=
  of_framed_refused (respond_ne_refused _ _) h

theorem of_execUpdate_refused {n : Nat} (h : execUpdate n s = .refused r) :
    r = .payloadLength ∧ s.din.length ≠ n := by
  refine of_framed_refused ?_ h
  split
  · exact respond_ne_refused _ _
  · exact respond_ne_refused _ _
  · exact updateContext_ne_refused n
  · exact updateContext_ne_refused n

theorem of_execFinalize_refused (h : execFinalize s = .refused r) :
    r = .payloadLength ∧ s.din.length ≠ 0 := by
  refine of_framed_refused ?_ h
  split
  · exact respond_ne_refused _ _
  · exact respond_ne_refused _ _
  · exact finalizeContext_ne_refused
  · exact finalizeContext_ne_refused

theorem of_formatDigest_refused {m : Mode} (h : formatDigest m s = .refused r) :
    r = .payloadLength ∧ s.din.length ≠ 0 := by
  refine of_framed_refused ?_ h
  split <;> exact respond_ne_refused _ _

/-- Every command refuses for one reason only. -/
theorem of_exec_refused {i : Instr} (h : exec i s = .refused r) :
    r = .payloadLength ∧ s.din.length ≠ i.payloadBytes := by
  cases i with
  | newMd5 | newSha1 | newSha224 | newSha256 | newSha384 | newSha512 =>
    exact of_newSupported_refused h
  | update n => exact of_execUpdate_refused h
  | finalize => exact of_execFinalize_refused h
  | formatRaw | formatHex => exact of_formatDigest_refused h
  | _ => exact of_newUnsupported_refused h

/-- A step that refuses was presented a pair whose payload has the wrong length. -/
theorem of_step_refused (h : step s = .refused r) :
    r = .payloadLength ∧
      ∃ c rest, s.host = .command c :: rest ∧ c.payload.length ≠ paylen c.word := by
  match hh : s.host with
  | [] => cases (step_of_no_input hh).symm.trans h
  | .reset :: rest => cases (step_of_reset hh).symm.trans h
  | .command c :: rest =>
    cases hd : decode c.word with
    | ok i =>
      obtain ⟨hr, hlen⟩ := of_exec_refused ((step_of_decode hh hd).symm.trans h)
      exact ⟨hr, c, rest, rfl, payloadBytes_of_decode hd ▸ hlen⟩
    | error e =>
      obtain ⟨hr, hlen⟩ := of_framed_refused (respond_ne_refused _ _)
        ((step_of_illegal hh hd).symm.trans h)
      exact ⟨hr, c, rest, rfl, hlen⟩

end

/-- Settles O10: the length is checked first in every command, and nothing after it refuses. -/
theorem mispairedPayloadIsRefused : Obligations.MispairedPayloadIsRefused :=
  ⟨fun _ _ _ => step_refused, fun _ _ => of_step_refused⟩

/-! ### The observation of a run (R270) -/

theorem runCommands_cons_of_issue {c : Command} {s t : State} (h : issue c s = .next t)
    (cs : List Command) : runCommands (c :: cs) s = runCommands cs t := by
  simp [runCommands, h]

theorem runCommands_cons_next_iff {c : Command} {cs : List Command} {s u : State} :
    runCommands (c :: cs) s = .next u ↔
      ∃ t, issue c s = .next t ∧ runCommands cs t = .next u := by
  cases h : issue c s <;> simp [runCommands, h]

/-- Observing a run does not change it. -/
theorem runCommands_next_iff_observe {cs : List Command} {s u : State} :
    runCommands cs s = .next u ↔ ∃ seen, observe cs s = .next (u, seen) := by
  induction cs generalizing s with
  | nil => simp [runCommands]
  | cons c cs ih =>
    simp only [runCommands_cons_next_iff, ih, observe_cons_cases]
    constructor
    · rintro ⟨t, ht, rest, hrest⟩
      exact ⟨_, t, rest, ht, hrest, rfl⟩
    · rintro ⟨_, t, rest, ht, hrest, rfl⟩
      exact ⟨t, ht, rest, hrest⟩

theorem observe_lengths {cs : List Command} {s u : State} {seen : Observation}
    (h : observe cs s = .next (u, seen)) :
    seen.responses.length = cs.length ∧ seen.status.length = cs.length + 1 := by
  induction cs generalizing s seen with
  | nil => cases h; exact ⟨rfl, rfl⟩
  | cons c cs ih =>
    obtain ⟨t, rest, ht, hrest, rfl⟩ := observe_cons_cases.mp h
    obtain ⟨r, hr⟩ := issue_answers ht
    obtain ⟨hresponses, hstatus⟩ := ih hrest
    simp [Observation.after, hr, hresponses, hstatus]

/-- STATUS number `k` is that of the state after the first `k` commands. -/
theorem observe_status {cs : List Command} {s u : State} {seen : Observation}
    (h : observe cs s = .next (u, seen)) {k : Nat} (hk : k ≤ cs.length) :
    ∃ t, runCommands (cs.take k) s = .next t ∧ seen.status[k]? = some (statusPort t) := by
  induction cs generalizing s seen k with
  | nil =>
    cases h
    obtain rfl : k = 0 := Nat.le_zero.mp hk
    exact ⟨_, rfl, rfl⟩
  | cons c cs ih =>
    obtain ⟨v, rest, hv, hrest, rfl⟩ := observe_cons_cases.mp h
    cases k with
    | zero => exact ⟨s, rfl, rfl⟩
    | succ k =>
      obtain ⟨t, ht, hstatus⟩ := ih hrest (Nat.le_of_succ_le_succ hk)
      exact ⟨t, (runCommands_cons_of_issue hv _).trans ht, hstatus⟩

/-- Response number `k` is the one that stands after the first `k + 1` commands. -/
theorem observe_response {cs : List Command} {s t u : State} {seen : Observation}
    (h : observe cs s = .next (u, seen)) {k : Nat} (hk : k < cs.length)
    (ht : runCommands (cs.take (k + 1)) s = .next t) : t.resp = seen.responses[k]? := by
  induction cs generalizing s seen k with
  | nil => cases hk
  | cons c cs ih =>
    obtain ⟨v, rest, hv, hrest, rfl⟩ := observe_cons_cases.mp h
    obtain ⟨r, hr⟩ := issue_answers hv
    rw [List.take_succ_cons, runCommands_cons_of_issue hv] at ht
    simp only [Observation.after, hr, Option.toList_some, List.singleton_append]
    cases k with
    | zero => cases ht; exact hr
    | succ k => exact ih hrest (Nat.lt_of_succ_lt_succ hk) ht

/-- Settles O59: each part by induction on the commands, one command and one boundary at a time. -/
theorem runShowsEveryBoundary : Obligations.RunShowsEveryBoundary := by
  refine fun cs s u => ⟨runCommands_next_iff_observe, fun seen h => ?_⟩
  obtain ⟨hresponses, hstatus⟩ := observe_lengths h
  refine ⟨hresponses, hstatus, fun k hk => ?_⟩
  obtain ⟨t, ht, hport⟩ := observe_status h hk
  refine ⟨t, ht, hport, fun hpos => ?_⟩
  obtain ⟨j, rfl⟩ := Nat.exists_eq_succ_of_ne_zero hpos.ne'
  exact observe_response h hk ht

/-! ### The digests the source prints (95_test_vectors.md S1 to S4) -/

/-- Settles O58: each message's one padded block, evaluated by the kernel. -/
theorem digestsPrintedInTheSource : Obligations.DigestsPrintedInTheSource :=
  ⟨by decide +kernel, by decide +kernel, by decide +kernel, by decide +kernel⟩

end Sys2Proof.Machine
